-- ==== Sys2Proof/Word.lean ====
section
/-! DEFINITION. The word types of the effective-cpu CORE (spec/00_scope.md R5). -/
namespace Sys2Proof

/-- One byte: the width of A, B, IR, MDR, a memory cell and an operand byte (`XLEN`, R5), and of an
address as an operand byte, SP and MAR carry it (`ADDR_W`, R5). -/
abbrev Byte := BitVec 8

/-- The program counter: 9 bits, so that 256, one past the last address, is a value of its own (R14).
DESIGN CHOICE of the spec (D5), log 5. -/
abbrev PcWord := BitVec 9

end Sys2Proof
end

