-- ==== Sys2Proof/Config.lean ====
section
/-! DEFINITION. The parameters of the block (spec/00_scope.md R5): the names of the 16 opcode values, the
default capacity, and the values the spec leaves OPEN, each an opaque constant that no proof can see into. -/
namespace Sys2Proof

/-- The 16 instruction mnemonics, in the order of the opcode table; each one names the parameter
`OP_<mnemonic>` (R54). -/
inductive Op
  | loadAVal
  | loadBVal
  | loadAMem
  | loadBMem
  | storeA
  | storeB
  | add
  | jmp
  | enableInterrupts
  | iret
  | pushA
  | pushB
  | popA
  | popB
  | halt
  | noop
deriving DecidableEq, Repr

/-- All 16 mnemonics (R54). -/
def Op.all : List Op :=
  [.loadAVal, .loadBVal, .loadAMem, .loadBMem, .storeA, .storeB, .add, .jmp,
    .enableInterrupts, .iret, .pushA, .pushB, .popA, .popB, .halt, .noop]

/-- A choice of the 16 opcode values: "A model takes the 16 values as a configuration" (R54). The table's
default values are `defaultOpcodes`. -/
abbrev OpcodeTable := Op → Byte

/-- The capacity `C` of this hardware (R5): RESET's default argument (R146). -/
def Config.defaultCapacity : Nat := 256

/-- The OPEN parameter `MEM_RESET` (R5, R127): what the cell at an address holds after RESET. A FREE VALUE:
the spec gives none (D7). Log 2. -/
opaque Config.memReset : Nat → Byte

/-- The value MDR holds after the running TICK that makes the n-th draw (R17). A FREE VALUE: the spec calls
it unspecified (D8). Log 3. -/
opaque Config.mdrDraw : Nat → Byte

/-- The OPEN parameter `IRQ_TIMER` (R5, R102): the number of the one code the base system defines. A FREE
VALUE: the spec gives none, and no rule depends on it (D4). Log 10. -/
opaque Config.irqTimer : Byte

end Sys2Proof
end

