-- ==== Sys2Proof/Syntax.lean ====
section
/-! DEFINITION. The instructions of the effective-cpu ISA, one constructor per row of spec/opcode_table.json
(spec/30_encoding.md R54). The register an instruction works on is part of its opcode, not an operand (R51). -/
namespace Sys2Proof

/-- One instruction. An operand is the whole operand byte: an immediate `v` or an absolute address `addr` (R53). -/
inductive Instr
  | loadAVal (v : Byte)
  | loadBVal (v : Byte)
  | loadAMem (addr : Byte)
  | loadBMem (addr : Byte)
  | storeA (addr : Byte)
  | storeB (addr : Byte)
  | add
  | jmp (addr : Byte)
  | enableInterrupts
  | iret
  | pushA
  | pushB
  | popA
  | popB
  | halt
  | noop
deriving DecidableEq, Repr

/-- The mnemonic of an instruction. -/
def Instr.op : Instr → Op
  | .loadAVal _ => .loadAVal
  | .loadBVal _ => .loadBVal
  | .loadAMem _ => .loadAMem
  | .loadBMem _ => .loadBMem
  | .storeA _ => .storeA
  | .storeB _ => .storeB
  | .add => .add
  | .jmp _ => .jmp
  | .enableInterrupts => .enableInterrupts
  | .iret => .iret
  | .pushA => .pushA
  | .pushB => .pushB
  | .popA => .popA
  | .popB => .popB
  | .halt => .halt
  | .noop => .noop

/-- The operand byte of a format D instruction (R52); none for format S (R51). -/
def Instr.operand : Instr → Option Byte
  | .loadAVal v => some v
  | .loadBVal v => some v
  | .loadAMem addr => some addr
  | .loadBMem addr => some addr
  | .storeA addr => some addr
  | .storeB addr => some addr
  | .add => none
  | .jmp addr => some addr
  | .enableInterrupts => none
  | .iret => none
  | .pushA => none
  | .pushB => none
  | .popA => none
  | .popB => none
  | .halt => none
  | .noop => none

end Sys2Proof
end

