-- ==== Sys2Proof/WellFormed.lean ====
section
/-! DEFINITION. The checks on what a model is configured with and on instructions as syntax: the opcode table
(spec/30_encoding.md R55), the capacity (spec/00_scope.md R6), and the addresses an instruction names. -/
namespace Sys2Proof

/-- R55: "the 16 values are pairwise distinct". That each is in 0..255 is the type. -/
abbrev OpcodeTable.wf (t : OpcodeTable) : Prop := (Op.all.map t).Nodup

/-- R5, R6: the capacities a model may be instantiated with are 1..256. -/
def capacityAdmitted (c : Nat) : Bool := decide (1 ≤ c ∧ c ≤ 256)

/-- The absolute address an instruction names selects a cell of a memory of capacity `c`. An immediate may be
any byte (R53, R75). With `c = 256` every instruction passes (R53). The machine runs an instruction that fails
this check all the same, by the rules of R77 to R80 and R85; the check only says which addresses exist. -/
def Instr.wf (c : Nat) : Instr → Bool
  | .loadAVal _ => true
  | .loadBVal _ => true
  | .loadAMem addr => decide (addr.toNat < c)
  | .loadBMem addr => decide (addr.toNat < c)
  | .storeA addr => decide (addr.toNat < c)
  | .storeB addr => decide (addr.toNat < c)
  | .add => true
  | .jmp addr => decide (addr.toNat < c)
  | .enableInterrupts => true
  | .iret => true
  | .pushA => true
  | .pushB => true
  | .popA => true
  | .popB => true
  | .halt => true
  | .noop => true

end Sys2Proof
end

