-- ==== Sys2Proof/Decode.lean ====
section
/-! DEFINITION. Decoding and encoding (spec/30_encoding.md R50 to R58). The decoder is total on bytes; what is no
instruction it rejects by name: an unrecognised byte (R56), a two-byte opcode whose operand byte is missing
(R61), and no byte at all. The encoder is written from the same tables. -/
namespace Sys2Proof

/-- The default opcode values of R54: 0x01 upward in the order of the table. DESIGN CHOICE of the spec (D3),
log 4. -/
def defaultOpcodes : OpcodeTable
  | .loadAVal => 0x01#8
  | .loadBVal => 0x02#8
  | .loadAMem => 0x03#8
  | .loadBMem => 0x04#8
  | .storeA => 0x05#8
  | .storeB => 0x06#8
  | .add => 0x07#8
  | .jmp => 0x08#8
  | .enableInterrupts => 0x09#8
  | .iret => 0x0A#8
  | .pushA => 0x0B#8
  | .pushB => 0x0C#8
  | .popA => 0x0D#8
  | .popB => 0x0E#8
  | .halt => 0x0F#8
  | .noop => 0x10#8

/-- Which mnemonics are of format D, "two-byte" (R52, R54); the others are of format S (R51). -/
def Op.hasOperand : Op → Bool
  | .loadAVal => true
  | .loadBVal => true
  | .loadAMem => true
  | .loadBMem => true
  | .storeA => true
  | .storeB => true
  | .add => false
  | .jmp => true
  | .enableInterrupts => false
  | .iret => false
  | .pushA => false
  | .pushB => false
  | .popA => false
  | .popB => false
  | .halt => false
  | .noop => false

/-- The length in bytes of a mnemonic's instructions: 2 for format D, 1 for format S (R50). -/
def Op.length (o : Op) : Nat := if o.hasOperand then 2 else 1

/-- The instruction of a mnemonic and its operand byte (R52, R53). A format S mnemonic takes no operand and
ignores the byte. -/
def Op.toInstr (o : Op) (v : Byte) : Instr :=
  match o with
  | .loadAVal => .loadAVal v
  | .loadBVal => .loadBVal v
  | .loadAMem => .loadAMem v
  | .loadBMem => .loadBMem v
  | .storeA => .storeA v
  | .storeB => .storeB v
  | .add => .add
  | .jmp => .jmp v
  | .enableInterrupts => .enableInterrupts
  | .iret => .iret
  | .pushA => .pushA
  | .pushB => .pushB
  | .popA => .popA
  | .popB => .popB
  | .halt => .halt
  | .noop => .noop

/-- R69: "The byte is compared with the 16 opcode values (all eight bits)"; `none` is an unrecognised byte (R56). -/
def decodeOpcode (t : OpcodeTable) (b : Byte) : Option Op :=
  Op.all.find? (fun o => t o == b)

/-- R57: the length of what starts with byte `b`, "a function of the byte alone": 2 for a format D opcode, else 1. -/
def lengthAt (t : OpcodeTable) (b : Byte) : Nat :=
  match decodeOpcode t b with
  | none => 1
  | some o => o.length

/-- What the decoder makes of a list of bytes. -/
inductive Decoded
  /-- An instruction, and the bytes after it. -/
  | instr (i : Instr) (rest : List Byte)
  /-- R56: the first byte is none of the 16 opcodes; it is one byte long. -/
  | unrecognised (b : Byte) (rest : List Byte)
  /-- R61: the first byte is a format D opcode and no byte follows it. -/
  | operandMissing (o : Op)
  /-- There is no byte to decode. -/
  | noBytes
deriving DecidableEq, Repr

/-- The decoder (R50 to R57), for any choice of the opcode values. -/
def decodeWith (t : OpcodeTable) : List Byte → Decoded
  | [] => .noBytes
  | b :: rest =>
    match decodeOpcode t b with
    | none => .unrecognised b rest
    | some o =>
      if o.hasOperand then
        match rest with
        | [] => .operandMissing o
        | v :: rest' => .instr (o.toInstr v) rest'
      else .instr (o.toInstr 0#8) rest

/-- The decoder with the default opcode values. -/
def decode (bytes : List Byte) : Decoded := decodeWith defaultOpcodes bytes

/-- Decode a whole list of bytes as code, from its first byte on, at most `fuel` instructions or unrecognised
bytes (R57: what is decoded depends on where decoding starts). `none` if an operand is missing. -/
def decodeAll (t : OpcodeTable) : Nat → List Byte → Option (List (Sum Instr Byte))
  | 0, bytes => if bytes.isEmpty then some [] else none
  | fuel + 1, bytes =>
    match decodeWith t bytes with
    | .noBytes => some []
    | .operandMissing _ => none
    | .unrecognised b rest => (decodeAll t fuel rest).map (Sum.inr b :: ·)
    | .instr i rest => (decodeAll t fuel rest).map (Sum.inl i :: ·)

/-- The encoder (R51, R52): the opcode byte at the lower address, the operand byte, if any, after it. -/
def encodeWith (t : OpcodeTable) (i : Instr) : List Byte := t i.op :: i.operand.toList

/-- The encoder with the default opcode values. -/
def encode (i : Instr) : List Byte := encodeWith defaultOpcodes i

/-- The length of an instruction in bytes (R50). -/
def Instr.length (i : Instr) : Nat := i.op.length

/-- The two bytes of a table word of `nbits` bits: bits 7..0 are the first byte, bits 15..8 the second (R34),
every bit above `nbits` is 0. -/
def tableBytes (nbits w : Nat) : List Byte :=
  [BitVec.ofNat 8 (w % 2 ^ nbits), BitVec.ofNat 8 (w % 2 ^ nbits / 256)]

/-- The instruction the decoder reads from a word numbered as spec/opcode_table.json numbers it. -/
def decodeTableWord (nbits w : Nat) : Option Instr :=
  match decode (tableBytes nbits w) with
  | .instr i _ => some i
  | .unrecognised _ _ => none
  | .operandMissing _ => none
  | .noBytes => none

end Sys2Proof
end

