-- ==== Sys2Proof/Machine/State.lean ====
section
/-! DEFINITION. The state of the effective-cpu CORE (spec/10_state.md R10), its reset value (R23), the ways a step
can stop (spec/60_exceptions.md R120), and the events of its interface (spec/80_host_interface.md R145). -/
namespace Sys2Proof.Machine

/-- The names of the two general registers (R11). -/
inductive Reg
  | A
  | B
deriving DecidableEq, Repr

/-- The memory `M` (R20, R30). `last` is the highest address, `C - 1`, so the capacity is 1..256 in every
value of this type (R5, R6). `cells` lists the bytes written since RESET, by rising address; a cell that is not
listed holds its reset contents, the free value `Config.memReset` (R127). Log 1, log 2. -/
structure Memory where
  last : Byte
  cells : List Host.Cell
deriving DecidableEq, Repr

/-- The complete state (R10), one field for each piece, and `draws`, which is the model's own. -/
structure State where
  /-- General register A (R11). -/
  a : Byte
  /-- General register B (R11). -/
  b : Byte
  /-- Instruction register, the opcode byte last fetched (R17). -/
  ir : Byte
  /-- Address latch, the address of the last opcode fetch (R17). -/
  mar : Byte
  /-- Data latch, a free value after every running TICK (R17). -/
  mdr : Byte
  /-- Program counter, 0..256 (R14). -/
  pc : PcWord
  /-- Stack pointer, the address of the next free cell (R15). -/
  sp : Byte
  /-- Interrupt-enable flag (R16). -/
  ie : Bool
  /-- The terminal flag HALTED (R18). -/
  halted : Bool
  /-- Pending interrupt codes, oldest first (R19). -/
  iq : List Byte
  /-- The memory (R20). -/
  mem : Memory
  /-- How many free MDR values have been drawn. The MODEL'S OWN field (log 3). -/
  draws : Nat
deriving DecidableEq, Repr

/-- The values of R23 for a memory whose highest address is `last`: registers zero, SP at `C - 1`, IE 0, HALTED
false, IQ empty (DESIGN CHOICE of the spec, D19, log 11), memory at its reset contents. -/
def State.resetOf (last : Byte) (draws : Nat) : State where
  a := 0#8
  b := 0#8
  ir := 0#8
  mar := 0#8
  mdr := 0#8
  pc := 0#9
  sp := last
  ie := false
  halted := false
  iq := []
  mem := { last := last, cells := [] }
  draws := draws

/-- The machine right after RESET with the default capacity 256 (R23, R125). The counter of free draws starts
at 0 (DESIGN CHOICE, log 3). -/
def State.reset : State := State.resetOf (BitVec.ofNat 8 (Config.defaultCapacity - 1)) 0

/-- The faults of R120. None is an event of the hardware: each marks a point where the spec gives no behaviour,
and all are safe (nothing is claimed of what follows). -/
inductive Fault
  /-- Raised by the opcode fetch when PC >= C (R68). Safe (log 6). -/
  | fetchOutOfRange (pc : PcWord)
  /-- Raised by the operand read when PC >= C (R70). Safe (log 6). -/
  | operandOutOfRange (pc : PcWord)
  /-- Raised by LOAD_A_MEM and LOAD_B_MEM when the address is >= C (R77, R78). Safe (log 6). -/
  | loadOutOfRange (addr : Byte)
  /-- Raised by interrupt service when the vector address is >= C (R106). Safe (log 6, log 22). -/
  | vectorOutOfRange (code : Byte)
  /-- Raised by interrupt service when PC is above 255 (R106). Safe (log 7). -/
  | pcNotByte (pc : PcWord)
deriving DecidableEq, Repr

/-- What the model declines to do. No TICK is ever refused (D18). -/
inductive Refusal
  /-- Raised by `exec` for an instruction that has no meaning yet. No arm raises it. Safe. -/
  | notModelled (mnemonic : String)
  /-- Raised by the RESET event for a capacity outside 1..256 (R6, U10). Safe (log 1). -/
  | capacityNotAdmitted (capacity : Nat)
deriving DecidableEq, Repr

/-- The four events of the interface (R145); each is one step of the block (R7). -/
inductive Event
  /-- RESET(C) (R146). -/
  | reset (capacity : Nat)
  /-- LOAD(bytes, base) (R147). -/
  | load (bytes : List Byte) (base : Byte)
  /-- IRQ(c) (R148). -/
  | irq (code : Byte)
  /-- TICK (R149). -/
  | tick
deriving DecidableEq, Repr

end Sys2Proof.Machine
end

