-- ==== Sys2Proof/Machine/Flags.lean ====
section
/-! DEFINITION. The one flag, IE (spec/10_state.md R16): "There are no condition codes". -/
namespace Sys2Proof.Machine

/-- `IE <- v` (R16). -/
def State.setIe (s : State) (v : Bool) : State := { s with ie := v }

end Sys2Proof.Machine
end

