-- ==== Sys2Proof/Machine/Ops.lean ====
section
/-! DEFINITION. The named operations over memory and registers (spec/20_memory.md, spec/10_state.md), the stack
discipline (R40 to R42), the entry into an interrupt handler and the return from it (spec/60_exceptions.md R106,
R109). -/
namespace Sys2Proof.Machine

/-- `zext_9` of a byte (spec/00_scope.md, Notation). -/
def zext9 (v : Byte) : PcWord := v.setWidth 9

/-- `PC[7:0]` (spec/00_scope.md, Notation). -/
def lowByte (pc : PcWord) : Byte := pc.setWidth 8

/-- `VT_BASE`, the base address of the interrupt vector table (R5, R107). -/
def vectorBase : Nat := 0

/-! ### Memory -/

/-- The capacity `C` of a memory (R20). -/
def Memory.capacity (m : Memory) : Nat := m.last.toNat + 1

/-- The byte listed at an address, if one is. -/
def lookupCell (a : Nat) : List Host.Cell → Option Byte
  | [] => none
  | c :: rest => if c.1 = a then some c.2 else lookupCell a rest

/-- List a byte at an address, keeping the addresses rising. -/
def insertCell (a : Nat) (v : Byte) : List Host.Cell → List Host.Cell
  | [] => [(a, v)]
  | c :: rest =>
    if a < c.1 then (a, v) :: c :: rest
    else if a = c.1 then (a, v) :: rest
    else c :: insertCell a v rest

/-- The canonical form: addresses strictly rising and below the capacity. An unlisted cell has no value of its
own (it reads as the free value of R127), so no entry can equal what an unlisted cell reads as. Log 2. -/
abbrev Memory.wf (m : Memory) : Prop :=
  m.cells.Pairwise (fun x y => x.1 < y.1) ∧ ∀ c ∈ m.cells, c.1 < m.capacity

/-- `M[a]` of an address below the capacity: the byte written there last, or else its reset contents (R43, R127). -/
def Memory.cell (m : Memory) (a : Nat) : Byte := (lookupCell a m.cells).getD (Config.memReset a)

/-- `MemRead(addr, 1)` (R31): the byte below the capacity; from the capacity on, no value. -/
def Memory.read? (m : Memory) (a : Nat) : Option Byte :=
  if a < m.capacity then some (m.cell a) else none

/-- `MemWrite(addr, 1, v)` (R32): silently ignored out of range. -/
def Memory.write (m : Memory) (a : Nat) (v : Byte) : Memory :=
  if a < m.capacity then { m with cells := insertCell a v m.cells } else m

/-- `loadImage(bytes, base)` (R33): bytes written one after the other from the base on, those past the last cell
dropped. -/
def Memory.loadImage (m : Memory) (base : Nat) : List Byte → Memory
  | [] => m
  | v :: rest => (m.write base v).loadImage (base + 1) rest

/-! ### Registers -/

/-- `x[r]` (R11). -/
def State.getReg (s : State) : Reg → Byte
  | .A => s.a
  | .B => s.b

/-- `x[r] <- v` (R11). -/
def State.setReg (s : State) (r : Reg) (v : Byte) : State :=
  match r with
  | .A => { s with a := v }
  | .B => { s with b := v }

/-- `PC <- v` (R13). -/
def State.setPc (s : State) (v : PcWord) : State := { s with pc := v }

/-- `SP <- v` (R15). -/
def State.setSp (s : State) (v : Byte) : State := { s with sp := v }

/-- `HALTED <- v` (R18). -/
def State.setHalted (s : State) (v : Bool) : State := { s with halted := v }

/-- `IQ <- q` (R19). -/
def State.setIq (s : State) (q : List Byte) : State := { s with iq := q }

/-- `M <- m` (R20). -/
def State.setMem (s : State) (m : Memory) : State := { s with mem := m }

/-- `MAR <- addr` and `IR <- b`, by the opcode fetch only (R17, R68). -/
def State.latchFetch (s : State) (addr b : Byte) : State := { s with mar := addr, ir := b }

/-- `MDR <- any value` (R17): the next free draw. A TICK that is no halted no-op makes one (log 3). -/
def State.drawMdr (s : State) : State := { s with mdr := Config.mdrDraw s.draws, draws := s.draws + 1 }

/-- `MemWrite(addr, 1, v)` on the state's memory. -/
def State.store (s : State) (a : Nat) (v : Byte) : State := s.setMem (s.mem.write a v)

/-! ### The stack (R40, R41) -/

/-- `max(SP - 1, 0)` (R40). -/
def pushedSp (sp : Byte) : Byte := if sp = 0#8 then 0#8 else sp - 1#8

/-- `min(SP + 1, C - 1)` (R41). -/
def poppedSp (last sp : Byte) : Byte := if sp < last then sp + 1#8 else last

/-- `push(v)` (R40): write at SP, then decrement SP, saturating at 0. -/
def push (v : Byte) (s : State) : State := (s.store s.sp.toNat v).setSp (pushedSp s.sp)

/-- The byte `pop()` returns (R41): the cell at the incremented SP, which is never past the last cell. -/
def popValue (s : State) : Byte := s.mem.cell (poppedSp s.mem.last s.sp).toNat

/-- What `pop()` leaves (R41): SP incremented, saturating at `C - 1`; the cell keeps its value. -/
def popState (s : State) : State := s.setSp (poppedSp s.mem.last s.sp)

/-! ### Entering an interrupt handler and returning from it -/

/-- The first part of interrupt service (R106): dequeue (`rest` is the tail of IQ), IE := 0, push PC. -/
def saveContext (rest : List Byte) (s : State) : State :=
  push (lowByte s.pc) ((s.setIq rest).setIe false)

/-- Service of code `c`, the head of IQ, with `rest` behind it (R106): save the context, then read the vector
(after the push) and set PC. A, B, IR, MAR, HALTED are not touched (R106, D12, log 9). -/
def enterInterrupt (c : Byte) (rest : List Byte) (s : State) : Host.Outcome State Fault Refusal :=
  if 255 < s.pc.toNat then .fault (.pcNotByte s.pc)
  else
    match (saveContext rest s).mem.read? (vectorBase + c.toNat) with
    | none => .fault (.vectorOutOfRange c)
    | some v => .next ((saveContext rest s).setPc (zext9 v))

/-- Return from an interrupt (R96, R109): PC := pop(), IE := 1; nothing else is restored. -/
def returnFromInterrupt (s : State) : State :=
  ((popState s).setPc (zext9 (popValue s))).setIe true

end Sys2Proof.Machine
end

