-- ==== Sys2Proof/Machine/Operands.lean ====
section
/-! DEFINITION. The operand byte (spec/40_execution_cycle.md R70), the two addressing modes (spec/41_load_store.md
R81), and the sum of ADD (spec/42_arithmetic.md R82). -/
namespace Sys2Proof.Machine

/-- `Operand()` (R70): read one byte at PC, then increment PC; IR and MAR are not written. -/
def readOperand (s : State) : Host.Outcome (Byte × State) Fault Refusal :=
  match s.mem.read? s.pc.toNat with
  | none => .fault (.operandOutOfRange s.pc)
  | some v => .next (v, s.setPc (s.pc + 1#9))

/-- Immediate (R81): the operand byte is the value. -/
def loadImmediate (r : Reg) (v : Byte) (s : State) : Host.Outcome State Fault Refusal :=
  .next (s.setReg r v)

/-- Absolute (R81): the operand byte is the address of the cell read; an address past the last cell has no value
(R77, R78). -/
def loadAbsolute (r : Reg) (addr : Byte) (s : State) : Host.Outcome State Fault Refusal :=
  match s.mem.read? addr.toNat with
  | none => .fault (.loadOutOfRange addr)
  | some v => .next (s.setReg r v)

/-- Absolute (R81): the operand byte is the address of the cell written; ignored past the last cell (R79, R80). -/
def storeAbsolute (r : Reg) (addr : Byte) (s : State) : Host.Outcome State Fault Refusal :=
  .next (s.store addr.toNat (s.getReg r))

/-- The sum of ADD: `(zext_9(x) + zext_9(y))[7:0]` (R82); no flag records the carry. DESIGN CHOICE of the spec
(D1), log 8. -/
def add8 (x y : Byte) : Byte := lowByte (zext9 x + zext9 y)

end Sys2Proof.Machine
end

