-- ==== Sys2Proof/Machine/Arithmetic.lean ====
section
/-! DEFINITION. The arithmetic instruction (spec/42_arithmetic.md). -/
namespace Sys2Proof.Machine

/-- ADD (R82): A := A + B modulo 256; B unchanged, no flag. -/
def execAdd (s : State) : Host.Outcome State Fault Refusal :=
  .next (s.setReg .A (add8 (s.getReg .A) (s.getReg .B)))

end Sys2Proof.Machine
end

