-- ==== Sys2Proof/Machine/Control.lean ====
section
/-! DEFINITION. The control instructions (spec/43_control.md). -/
namespace Sys2Proof.Machine

/-- JMP addr (R85): PC := zext_9(addr); any address, in range or not. -/
def execJmp (addr : Byte) (s : State) : Host.Outcome State Fault Refusal := .next (s.setPc (zext9 addr))

/-- HALT (R86): HALTED := true. -/
def execHalt (s : State) : Host.Outcome State Fault Refusal := .next (s.setHalted true)

/-- NOOP (R87): nothing. -/
def execNoop (s : State) : Host.Outcome State Fault Refusal := .next s

end Sys2Proof.Machine
end

