-- ==== Sys2Proof/Machine/Interrupt.lean ====
section
/-! DEFINITION. The interrupt-control instructions (spec/45_interrupt_instructions.md). Neither needs a privilege:
there is one mode (spec/60_exceptions.md R114). -/
namespace Sys2Proof.Machine

/-- ENABLE_INTERRUPTS (R95): IE := 1, in a handler too (R111). -/
def execEnableInterrupts (s : State) : Host.Outcome State Fault Refusal := .next (s.setIe true)

/-- IRET (R96): PC := pop(); IE := 1, whether or not an interrupt is in service. -/
def execIret (s : State) : Host.Outcome State Fault Refusal := .next (returnFromInterrupt s)

end Sys2Proof.Machine
end

