-- ==== Sys2Proof/Machine/LoadStore.lean ====
section
/-! DEFINITION. The load and store instructions (spec/41_load_store.md). In every meaning PC is already past the
instruction: the fetch and the operand read have moved it (spec/40_execution_cycle.md R68, R70, log 17). -/
namespace Sys2Proof.Machine

/-- LOAD_A_VAL v (R75): A := v. -/
def execLoadAVal (v : Byte) (s : State) : Host.Outcome State Fault Refusal := loadImmediate .A v s

/-- LOAD_B_VAL v (R76): B := v. -/
def execLoadBVal (v : Byte) (s : State) : Host.Outcome State Fault Refusal := loadImmediate .B v s

/-- LOAD_A_MEM addr (R77): A := M[addr]. -/
def execLoadAMem (addr : Byte) (s : State) : Host.Outcome State Fault Refusal := loadAbsolute .A addr s

/-- LOAD_B_MEM addr (R78): B := M[addr]. -/
def execLoadBMem (addr : Byte) (s : State) : Host.Outcome State Fault Refusal := loadAbsolute .B addr s

/-- STORE_A addr (R79): M[addr] := A. -/
def execStoreA (addr : Byte) (s : State) : Host.Outcome State Fault Refusal := storeAbsolute .A addr s

/-- STORE_B addr (R80): M[addr] := B. -/
def execStoreB (addr : Byte) (s : State) : Host.Outcome State Fault Refusal := storeAbsolute .B addr s

end Sys2Proof.Machine
end

