-- ==== Sys2Proof/Machine/Stack.lean ====
section
/-! DEFINITION. The stack instructions (spec/44_stack.md), over push and pop of spec/20_memory.md R40, R41. -/
namespace Sys2Proof.Machine

/-- PUSH_A (R90): push(A). -/
def execPushA (s : State) : Host.Outcome State Fault Refusal := .next (push (s.getReg .A) s)

/-- PUSH_B (R91): push(B). -/
def execPushB (s : State) : Host.Outcome State Fault Refusal := .next (push (s.getReg .B) s)

/-- POP_A (R92): A := pop(). -/
def execPopA (s : State) : Host.Outcome State Fault Refusal := .next ((popState s).setReg .A (popValue s))

/-- POP_B (R93): B := pop(). -/
def execPopB (s : State) : Host.Outcome State Fault Refusal := .next ((popState s).setReg .B (popValue s))

end Sys2Proof.Machine
end

