-- ==== Sys2Proof/Machine/Dispatch.lean ====
section
/-! DEFINITION. One arm per instruction (spec/40_execution_cycle.md R69), each one call of its meaning. -/
namespace Sys2Proof.Machine

def exec (i : Instr) (s : State) : Host.Outcome State Fault Refusal :=
  match i with
  -- loads and stores (spec/41_load_store.md)
  | .loadAVal v => Sys2Proof.Machine.execLoadAVal v s
  | .loadBVal v => Sys2Proof.Machine.execLoadBVal v s
  | .loadAMem addr => Sys2Proof.Machine.execLoadAMem addr s
  | .loadBMem addr => Sys2Proof.Machine.execLoadBMem addr s
  | .storeA addr => Sys2Proof.Machine.execStoreA addr s
  | .storeB addr => Sys2Proof.Machine.execStoreB addr s
  -- arithmetic (spec/42_arithmetic.md)
  | .add => Sys2Proof.Machine.execAdd s
  -- control (spec/43_control.md)
  | .jmp addr => Sys2Proof.Machine.execJmp addr s
  -- interrupt control (spec/45_interrupt_instructions.md)
  | .enableInterrupts => Sys2Proof.Machine.execEnableInterrupts s
  | .iret => Sys2Proof.Machine.execIret s
  -- stack (spec/44_stack.md)
  | .pushA => Sys2Proof.Machine.execPushA s
  | .pushB => Sys2Proof.Machine.execPushB s
  | .popA => Sys2Proof.Machine.execPopA s
  | .popB => Sys2Proof.Machine.execPopB s
  -- control (spec/43_control.md)
  | .halt => Sys2Proof.Machine.execHalt s
  | .noop => Sys2Proof.Machine.execNoop s

end Sys2Proof.Machine
end

