-- ==== Sys2Proof/Machine/Cycle.lean ====
section
/-! DEFINITION. The execution cycle (spec/40_execution_cycle.md): fetch, decode-and-execute, the TICK. Each is given
for any choice of the opcode values (spec/30_encoding.md R54). -/
namespace Sys2Proof.Machine

/-- Fetch (R68): MAR := PC[7:0], IR := the byte at PC, PC := PC + 1 without wrap. -/
def fetchOpcode (s : State) : Host.Outcome (Byte × State) Fault Refusal :=
  match s.mem.read? s.pc.toNat with
  | none => .fault (.fetchOutOfRange s.pc)
  | some b => .next (b, (s.latchFetch (lowByte s.pc) b).setPc (s.pc + 1#9))

/-- Decode-and-execute (R69): the fetched byte selects the instruction, a two-byte one reads its operand first
(R70), and an unrecognised byte does nothing more (R71). -/
def executeOpcode (t : OpcodeTable) (b : Byte) (s : State) : Host.Outcome State Fault Refusal :=
  match decodeOpcode t b with
  | none => .next s
  | some o =>
    if o.hasOperand then
      match readOperand s with
      | .next (v, s') => exec (o.toInstr v) s'
      | .fault f => .fault f
      | .refused r => .refused r
    else exec (o.toInstr 0#8) s

/-- One fetch followed by one decode-and-execute (R65, third alternative). -/
def fetchExecute (t : OpcodeTable) (s : State) : Host.Outcome State Fault Refusal :=
  match fetchOpcode s with
  | .next (b, s') => executeOpcode t b s'
  | .fault f => .fault f
  | .refused r => .refused r

/-- The service condition (R67): IE = 1 and IQ not empty; the oldest code and the codes behind it. -/
def serviceDue (s : State) : Option (Byte × List Byte) :=
  if s.ie then
    match s.iq with
    | [] => none
    | c :: rest => some (c, rest)
  else none

/-- TICK (R65): a halted no-op, or else an interrupt service if one is due, or else a fetch-execute. A TICK that
is no halted no-op leaves MDR at a free value (R17). -/
def tickWith (t : OpcodeTable) (s : State) : Host.Outcome State Fault Refusal :=
  if s.halted then .next s
  else
    match serviceDue s with
    | some (c, rest) => enterInterrupt c rest s.drawMdr
    | none => fetchExecute t s.drawMdr

/-- The mnemonic whose opcode IR holds, or none: what the source's diagnostic calls DATA (R21). -/
def fetchedOp (t : OpcodeTable) (s : State) : Option Op := decodeOpcode t s.ir

end Sys2Proof.Machine
end

