-- ==== Sys2Proof/Machine/Step.lean ====
section
/-! DEFINITION. One step of the machine, the TICK event (spec/40_execution_cycle.md R65) with the default opcode
values, and the placing of an instruction where the next step fetches it. The other three events are in
Sys2Proof/Machine/Events.lean. -/
namespace Sys2Proof.Machine

/-- One TICK (R65, R149). -/
def step (s : State) : Host.Outcome State Fault Refusal := tickWith defaultOpcodes s

/-- The state whose next step fetches and runs the instruction of a table word. Its bytes are stored from PC on;
PC becomes 0 only where the instruction would not fit at PC; HALTED is cleared, and the pending codes are dropped
only where the next step would service one instead of fetching. It stands for the host's LOAD (log 18). -/
def State.withFetchWord (s : State) (nbits w : Nat) : State :=
  let bytes := tableBytes nbits w
  let pc := if s.pc.toNat + lengthAt defaultOpcodes (bytes.headD 0#8) ≤ s.mem.capacity then s.pc else 0#9
  { s with
    pc := pc
    halted := false
    iq := if s.ie then [] else s.iq
    mem := s.mem.loadImage pc.toNat bytes }

end Sys2Proof.Machine
end

