-- ==== Sys2Proof/Machine/Assembly.lean ====
section
/-! DEFINITION. The assembly notation of spec/30_encoding.md R59 and R60, as abstract syntax: mnemonics, operands
that are bytes or labels, the DATA directive. It carries no semantics (D23): a program is the bytes it stands for.
Reading the characters of a source line is left out (log 21). -/
namespace Sys2Proof.Machine

/-- A mnemonic's spelling (R54, R59). -/
def mnemonic : Op → String
  | .loadAVal => "LOAD_A_VAL"
  | .loadBVal => "LOAD_B_VAL"
  | .loadAMem => "LOAD_A_MEM"
  | .loadBMem => "LOAD_B_MEM"
  | .storeA => "STORE_A"
  | .storeB => "STORE_B"
  | .add => "ADD"
  | .jmp => "JMP"
  | .enableInterrupts => "ENABLE_INTERRUPTS"
  | .iret => "IRET"
  | .pushA => "PUSH_A"
  | .pushB => "PUSH_B"
  | .popA => "POP_A"
  | .popB => "POP_B"
  | .halt => "HALT"
  | .noop => "NOOP"

/-- `operand ::= byte | label` (R59). -/
inductive AsmOperand
  | byte (n : Nat)
  | label (name : String)
deriving DecidableEq, Repr

/-- `instr ::= mnemonic-S | mnemonic-D operand | 'DATA' byte` (R59). -/
inductive AsmInstr
  | op (o : Op) (operand : Option AsmOperand)
  | data (n : Nat)
deriving DecidableEq, Repr

/-- `line ::= [label ':'] [instr]` (R59). -/
structure AsmLine where
  label : Option String
  instr : Option AsmInstr
deriving DecidableEq, Repr

/-- How many bytes a line places. -/
def AsmLine.size (l : AsmLine) : Nat :=
  match l.instr with
  | none => 0
  | some (.op o _) => o.length
  | some (.data _) => 1

/-- Each label with "the address of the byte that follows it" (R59), for lines placed from `addr` on. -/
def labelsFrom (addr : Nat) : List AsmLine → List (String × Nat)
  | [] => []
  | l :: rest =>
    let later := labelsFrom (addr + l.size) rest
    match l.label with
    | none => later
    | some name => (name, addr) :: later

/-- `byte ::= decimal 0..255 | '0x' hex 00..FF` (R59): no other number is a byte. -/
def asmByte (n : Nat) : Option Byte := if n < 256 then some (BitVec.ofNat 8 n) else none

/-- The byte an operand stands for. -/
def AsmOperand.value (labels : List (String × Nat)) : AsmOperand → Option Byte
  | .byte n => asmByte n
  | .label name => (labels.lookup name).bind asmByte

/-- The bytes a line places; none for a line the grammar of R59 does not admit: a format S mnemonic with an
operand, a format D one without, a number above 255, a label that is not defined. -/
def AsmLine.bytes (t : OpcodeTable) (labels : List (String × Nat)) (l : AsmLine) : Option (List Byte) :=
  match l.instr with
  | none => some []
  | some (.data n) => (asmByte n).map (fun v => [v])
  | some (.op o none) => if o.hasOperand then none else some [t o]
  | some (.op o (some x)) => if o.hasOperand then (x.value labels).map (fun v => [t o, v]) else none

/-- The source line of an instruction: its mnemonic, and its operand byte as a number (R59). -/
def lineOf (i : Instr) : AsmLine :=
  { label := none, instr := some (.op i.op (i.operand.map (fun v => .byte v.toNat))) }

/-- The bytes of all lines, one after the other. -/
def linesBytes (t : OpcodeTable) (labels : List (String × Nat)) : List AsmLine → Option (List Byte)
  | [] => some []
  | l :: rest =>
    match l.bytes t labels, linesBytes t labels rest with
    | some x, some y => some (x ++ y)
    | _, _ => none

/-- The image of a program placed from `base` on (R59). A label defined twice is refused (log 21). -/
def assemble (t : OpcodeTable) (base : Nat) (lines : List AsmLine) : Option (List Byte) :=
  let labels := labelsFrom base lines
  if (labels.map Prod.fst).Nodup then linesBytes t labels lines else none

end Sys2Proof.Machine
end

