-- ==== Sys2Proof/Machine/Events.lean ====
section
/-! DEFINITION. The four events of the interface (spec/80_host_interface.md R145 to R150), and runs of events. Each
event is one atomic transition; the host issues them one at a time (R150, log 14). -/
namespace Sys2Proof.Machine

/-- RESET(C) (R125, R146): the state of R23 with capacity `c`, whatever came before; a capacity outside 1..256 is
refused (R6). The counter of free draws, the model's own, goes on (log 15). -/
def resetEvent (c : Nat) (s : State) : Host.Outcome State Fault Refusal :=
  if capacityAdmitted c then .next (State.resetOf (BitVec.ofNat 8 (c - 1)) s.draws)
  else .refused (.capacityNotAdmitted c)

/-- LOAD(bytes, base) (R147): write the bytes from `base` on, then PC := base; nothing else changes. -/
def loadEvent (bytes : List Byte) (base : Byte) (s : State) : State :=
  (s.setMem (s.mem.loadImage base.toNat bytes)).setPc (zext9 base)

/-- IRQ(c) (R103): append `c` to IQ unless it is already pending, whatever IE and HALTED hold. -/
def irqEvent (c : Byte) (s : State) : State :=
  if c ∈ s.iq then s else s.setIq (s.iq ++ [c])

/-- One event, for any choice of the opcode values (R7, R145). -/
def eventWith (t : OpcodeTable) (e : Event) (s : State) : Host.Outcome State Fault Refusal :=
  match e with
  | .reset c => resetEvent c s
  | .load bytes base => .next (loadEvent bytes base s)
  | .irq c => .next (irqEvent c s)
  | .tick => tickWith t s

/-- One event with the default opcode values; `event .tick` is `step`. -/
def event (e : Event) (s : State) : Host.Outcome State Fault Refusal := eventWith defaultOpcodes e s

/-- A run: a sequence of events in the order the host issues them (R150, R153), ended by the first fault or
refusal. -/
def runEvents (t : OpcodeTable) : List Event → State → Host.Outcome State Fault Refusal
  | [], s => .next s
  | e :: rest, s =>
    match eventWith t e s with
    | .next s' => runEvents t rest s'
    | .fault f => .fault f
    | .refused r => .refused r

/-- The request of the one code the base system defines, the "TIMER"-style code (R102). Its number is free. -/
def timerRequest : Event := .irq Config.irqTimer

end Sys2Proof.Machine
end

