-- ==== Sys2Proof/Machine/Surface.lean ====
section
/-! DEFINITION. What the host can see (spec/80_host_interface.md R151). Reading it changes nothing. -/
namespace Sys2Proof.Machine

/-- The observable state surface (R151): every piece of state of R10, the memory cell by cell. -/
structure Surface where
  a : Byte
  b : Byte
  ir : Byte
  mar : Byte
  mdr : Byte
  pc : PcWord
  sp : Byte
  ie : Bool
  halted : Bool
  iq : List Byte
  bytes : List Byte
deriving DecidableEq, Repr

/-- The contents `M[0]`, ..., `M[C-1]` (R20, R151). -/
def Memory.bytes (m : Memory) : List Byte := (List.range m.capacity).map m.cell

/-- The surface of a state. Which cells have been written since RESET, and how many free values have been drawn,
are not part of it. -/
def State.surface (s : State) : Surface where
  a := s.a
  b := s.b
  ir := s.ir
  mar := s.mar
  mdr := s.mdr
  pc := s.pc
  sp := s.sp
  ie := s.ie
  halted := s.halted
  iq := s.iq
  bytes := s.mem.bytes

end Sys2Proof.Machine
end

