-- ==== Sys2Proof/Safety.lean ====
section
/-! DEFINITION. What counts as a safe state and a safe run of the effective-cpu CORE, in the terms claims use: the
invariants of spec/10_state.md R24, the three kinds of TICK of spec/40_execution_cycle.md R65, runs without a fault,
and states that differ only in the observation latches of R17. -/
namespace Sys2Proof.Machine

/-- The invariants of R24: SP below the capacity (1), PC at most 256 (3), no code pending twice (5); and the
memory in its canonical form. Its points 2 and 4 are the types of the fields, its point 6 is about the TICK. -/
abbrev State.Inv (s : State) : Prop :=
  s.sp.toNat < s.mem.capacity ∧ s.pc.toNat ≤ 256 ∧ s.iq.Nodup ∧ s.mem.wf

/-- The next TICK fetches: running, and no service is due (R65, third alternative). -/
abbrev State.Fetches (s : State) : Prop := s.halted = false ∧ (s.ie = false ∨ s.iq = [])

/-- The next TICK services code `c`, the oldest pending one, with `rest` behind it (R65, second alternative). -/
abbrev State.Services (s : State) (c : Byte) (rest : List Byte) : Prop :=
  s.halted = false ∧ s.ie = true ∧ s.iq = c :: rest

/-- The bytes from PC to the top of memory: what the next fetch decodes. -/
def State.code (s : State) : List Byte := s.mem.bytes.drop s.pc.toNat

/-- `k` TICKs from `s` on meet no fault. -/
def State.RunsSafely (s : State) (k : Nat) : Prop := ∃ t : State, Host.Core.run core k s = .next t

/-- A run of events that ends in `s'`, from the state right after a RESET (R153). -/
def Reachable (s' : State) : Prop := ∃ es : List Event, runEvents defaultOpcodes es State.reset = .next s'

/-- The state with the latches no rule reads (MAR and MDR, R17), the count of draws, and IR, which only the TICK
that wrote it reads, put to fixed values. -/
def State.withoutLatches (s : State) : State := { s with ir := 0#8, mar := 0#8, mdr := 0#8, draws := 0 }

/-- The state `t` with MDR, and the count of draws, as `s` has them: `t` apart from the value R17 leaves free. -/
def State.apartFromMdr (t s : State) : State := { t with mdr := s.mdr, draws := s.draws }

/-- What the host sees apart from MDR, whose value R17 leaves free, here put to a fixed value. -/
def Surface.withoutMdr (v : Surface) : Surface := { v with mdr := 0#8 }

/-- Run a list of instructions, each as `exec` does, up to the first fault. -/
def execAll : List Instr → State → Host.Outcome State Fault Refusal
  | [], s => .next s
  | i :: rest, s =>
    match exec i s with
    | .next s' => execAll rest s'
    | .fault f => .fault f
    | .refused r => .refused r

/-- Push each byte of a list, the first one first. -/
def pushAll (vs : List Byte) (s : State) : State := vs.foldl (fun u v => push v u) s

/-- Pop `k` bytes: what they were, the first popped first, and the state after. -/
def popAll : Nat → State → List Byte × State
  | 0, s => ([], s)
  | k + 1, s => (popValue s :: (popAll k (popState s)).1, (popAll k (popState s)).2)

/-- An outcome with a function applied to the next state, if there is one. -/
def mapNext {α β : Type} (f : α → β) : Host.Outcome α Fault Refusal → Host.Outcome β Fault Refusal
  | .next s => .next (f s)
  | .fault r => .fault r
  | .refused r => .refused r

end Sys2Proof.Machine
end

