-- ==== Sys2Proof/Certificates/Slice0/Obligations.lean ====
section
/-! DEFINITION. The statements about the model that the provers settle. Each docstring names the rules of spec/ it
comes from. `t.apartFromMdr s` is the next state with MDR put back, so that no statement rests on the value R17 leaves
free; `{ s with ... }` names every field that changes, so it states the frame as well. -/
open Sys2Proof Sys2Proof.Machine

/-! ### Encoding (spec/30_encoding.md) -/

/-- Words written out bit by bit from the encodings of R54, one or more per family, and what the decoder reads. The
opcode values are the spec's defaults, its decision D3 (log 4). -/
def Obligations.SampleWordsDecode : Prop :=
  decode [0b00000001#8, 0b00000101#8] = .instr (.loadAVal 5#8) [] ∧
  decode [0b00000100#8, 0b00100001#8] = .instr (.loadBMem 0x21#8) [] ∧
  decode [0b00000101#8, 0b00010000#8, 0b00001111#8] = .instr (.storeA 0x10#8) [0x0F#8] ∧
  decode [0b00000111#8] = .instr .add [] ∧
  decode [0b00001000#8, 0b00010101#8] = .instr (.jmp 0x15#8) [] ∧
  decode [0b00001010#8] = .instr .iret [] ∧
  decode [0b00001100#8] = .instr .pushB [] ∧
  decode [0b00010000#8, 0b00000111#8] = .instr .noop [0x07#8] ∧
  decode [0b00000000#8, 0b00000001#8] = .unrecognised 0#8 [0x01#8] ∧
  decode [0b00000110#8] = .operandMissing .storeB ∧
  decodeTableWord 16 0x1006 = some (.storeB 0x10#8) ∧
  decodeTableWord 8 0x0F = some .halt ∧
  decodeTableWord 8 0x11 = none

/-- For every choice of 16 pairwise distinct opcode values (R55), decoding what the encoder writes gives the
instruction back, with every operand byte, and leaves what follows it. -/
def Obligations.DecodeInvertsEncode : Prop :=
  ∀ t : OpcodeTable, t.wf → ∀ (i : Instr) (rest : List Byte),
    decodeWith t (encodeWith t i ++ rest) = .instr i rest

/-- Each word has one meaning: bytes that decode to an instruction are that instruction's encoding and what is left.
For any opcode values at all. -/
def Obligations.EncodeInvertsDecode : Prop :=
  ∀ (t : OpcodeTable) (bytes : List Byte) (i : Instr) (rest : List Byte),
    decodeWith t bytes = .instr i rest → bytes = encodeWith t i ++ rest

/-- A byte that is none of the 16 opcode values is an unrecognised byte, one byte long, whatever follows it (R55,
R56); with the default values these are 0x00 and 0x11 to 0xFF. The opcode values are the spec's defaults, its decision
D3 (log 4). -/
def Obligations.UnrecognisedBytesAreTheOthers : Prop :=
  (∀ (t : OpcodeTable) (b : Byte) (rest : List Byte),
    decodeWith t (b :: rest) = .unrecognised b rest ↔ ∀ o : Op, t o ≠ b) ∧
  (∀ b : Byte, (∀ o : Op, defaultOpcodes o ≠ b) ↔ b = 0x00#8 ∨ 0x11#8 ≤ b)

/-- The length of what starts with a byte is a function of that byte alone: 2 for a format D opcode, else 1; and the
decoder leaves exactly what comes after that length (R57). -/
def Obligations.LengthIsGivenByTheFirstByte : Prop :=
  ∀ t : OpcodeTable, t.wf → ∀ (b : Byte) (rest : List Byte),
    (lengthAt t b = 2 ↔ ∃ o : Op, o.hasOperand = true ∧ t o = b) ∧ (lengthAt t b = 1 ∨ lengthAt t b = 2) ∧
    (∀ i left, decodeWith t (b :: rest) = .instr i left → left = (b :: rest).drop (lengthAt t b)) ∧
    (∀ x left, decodeWith t (b :: rest) = .unrecognised x left → left = (b :: rest).drop (lengthAt t b))

/-- A program's bytes, decoded from its first byte on, are its instructions in order (R50 to R55). -/
def Obligations.EncodedProgramDecodes : Prop :=
  ∀ t : OpcodeTable, t.wf → ∀ is : List Instr,
    decodeAll t is.length (is.flatMap (encodeWith t)) = some (is.map Sum.inl)

/-- Assembling the lines of instructions gives their encodings one after the other; and for lines of any kind `assemble`
answers exactly the bytes R59 describes: the pieces of the lines in order, a bare label placing nothing, DATA its byte, a
format S mnemonic its opcode, a format D one its opcode and its operand, where a label stands for the address of the byte
that follows it, the base and all bytes placed before. It refuses every other list of lines: a number above 255, an operand
missing or too many; and, as the model's choice where R59 is silent, a label defined twice, defined nowhere, or at an
address that is no byte (log 21). -/
def Obligations.AssemblyIsTheEncoding : Prop :=
  ∀ (t : OpcodeTable) (base : Nat),
    (∀ is : List Instr, assemble t base (is.map lineOf) = some (is.flatMap (encodeWith t))) ∧
    ∀ (lines : List AsmLine) (bytes : List Byte), assemble t base lines = some bytes ↔
      (lines.filterMap AsmLine.label).Nodup ∧
      ∃ pieces : List (List Byte), pieces.length = lines.length ∧ pieces.flatten = bytes ∧
        ∀ (k : Nat) (l : AsmLine) (piece : List Byte), lines[k]? = some l → pieces[k]? = some piece →
          match l.instr with
          | none => piece = []
          | some (.data n) => n < 256 ∧ piece = [BitVec.ofNat 8 n]
          | some (.op o none) => o.hasOperand = false ∧ piece = [t o]
          | some (.op o (some (.byte n))) => o.hasOperand = true ∧ n < 256 ∧ piece = [t o, BitVec.ofNat 8 n]
          | some (.op o (some (.label name))) => o.hasOperand = true ∧
              ∃ (j : Nat) (d : AsmLine), lines[j]? = some d ∧ d.label = some name ∧
                base + (pieces.take j).flatten.length < 256 ∧
                piece = [t o, BitVec.ofNat 8 (base + (pieces.take j).flatten.length)]

/-! ### The step runs what is decoded (spec/40_execution_cycle.md) -/

/-- A TICK that fetches decodes the bytes from PC on and does what the decoder found, for any opcode values: an
instruction runs with IR its opcode, MAR the old PC, and PC already past it (R68 to R71). MDR holds a free value (R17,
log 3); no wrap and the faults are the spec's decisions D5, D6 (log 5, log 6). That operand reads and data accesses
leave MAR alone is D9 (log 9), that `exec` starts after them the model's (log 17). -/
def Obligations.StepRunsTheDecodedInstruction : Prop :=
  ∀ (t : OpcodeTable) (s : State), s.Fetches →
    match decodeWith t s.code with
    | .noBytes => tickWith t s = .fault (.fetchOutOfRange s.pc)
    | .operandMissing _ => tickWith t s = .fault (.operandOutOfRange (s.pc + 1#9))
    | .unrecognised b _ => tickWith t s = .next { s with
        ir := b, mar := s.pc.setWidth 8, mdr := Config.mdrDraw s.draws, draws := s.draws + 1, pc := s.pc + 1#9 }
    | .instr i _ => tickWith t s = exec i { s with
        ir := t i.op, mar := s.pc.setWidth 8, mdr := Config.mdrDraw s.draws, draws := s.draws + 1,
        pc := s.pc + BitVec.ofNat 9 i.length }

/-- The word a state is given by `withFetchWord` is what its next step decodes (log 18). -/
def Obligations.FetchWordIsFetchedNext : Prop :=
  ∀ (s : State) (nbits w : Nat) (i : Instr), decodeTableWord nbits w = some i → i.length ≤ s.mem.capacity →
    (s.withFetchWord nbits w).Fetches ∧ ∃ rest, decode (s.withFetchWord nbits w).code = .instr i rest

/-- R66: a TICK of a halted core changes no state at all, and so does any number of them. -/
def Obligations.HaltedTickChangesNothing : Prop :=
  ∀ s : State, s.halted = true →
    (∀ t : OpcodeTable, tickWith t s = .next s) ∧ ∀ k : Nat, Host.Core.run core k s = .next s

/-- An unrecognised byte moves PC past itself, is left in IR, its address in MAR, and changes nothing else (R71). That
PC does not wrap is the spec's decision D5 (log 5). The opcode values are the spec's defaults, its decision D3 (log
4). -/
def Obligations.UnrecognisedByteOnlyAdvancesPc : Prop :=
  ∀ (s : State) (b : Byte), s.Fetches → s.mem.read? s.pc.toNat = some b → (b = 0x00#8 ∨ 0x11#8 ≤ b) →
    ∃ t, step s = .next t ∧
      t.apartFromMdr s = { s with ir := b, mar := s.pc.setWidth 8, pc := s.pc + 1#9 }

/-! ### Each instruction's effect: `exec` answers a next state -/

/-- LOAD_A_VAL and LOAD_B_VAL complete from every state and change their register only (R75, R76). `exec` starts with
PC past the instruction (log 17) and with MDR drawn already, so that it leaves MDR alone (log 3): both are the model's
choices. -/
def Obligations.LoadImmediateSetsItsRegister : Prop :=
  ∀ (v : Byte) (s : State),
    exec (.loadAVal v) s = .next { s with a := v } ∧ exec (.loadBVal v) s = .next { s with b := v }

/-- LOAD_A_MEM and LOAD_B_MEM complete where the address is a cell, and change their register only; past the last cell
they stop with LoadOutOfRange (the spec's decision D6, log 6). `exec` starts with PC past the instruction (log 17) and
with MDR drawn already, so that it leaves MDR alone (log 3): both are the model's choices. That the data read leaves
MAR alone is the spec's decision D9 (log 9). -/
def Obligations.LoadAbsoluteReadsItsCell : Prop :=
  ∀ (addr : Byte) (s : State),
    (addr.toNat < s.mem.capacity →
      ∃ v, s.mem.read? addr.toNat = some v ∧
        exec (.loadAMem addr) s = .next { s with a := v } ∧ exec (.loadBMem addr) s = .next { s with b := v }) ∧
    (s.mem.capacity ≤ addr.toNat →
      exec (.loadAMem addr) s = .fault (.loadOutOfRange addr) ∧
      exec (.loadBMem addr) s = .fault (.loadOutOfRange addr))

/-- STORE_A and STORE_B complete from every state; the cell at their address, if there is one, holds the register, and
every other cell and every register is unchanged (R79, R80). `exec` starts with PC past the instruction (log 17) and
with MDR drawn already, so that it leaves MDR alone (log 3): both are the model's choices. That the store leaves MAR
alone is the spec's decision D9 (log 9). -/
def Obligations.StoreWritesItsCellOnly : Prop :=
  ∀ (addr : Byte) (s : State),
    (∃ m : Memory, exec (.storeA addr) s = .next { s with mem := m } ∧ m.capacity = s.mem.capacity ∧
      ∀ p, m.read? p = if p = addr.toNat ∧ p < s.mem.capacity then some s.a else s.mem.read? p) ∧
    (∃ m : Memory, exec (.storeB addr) s = .next { s with mem := m } ∧ m.capacity = s.mem.capacity ∧
      ∀ p, m.read? p = if p = addr.toNat ∧ p < s.mem.capacity then some s.b else s.mem.read? p)

/-- ADD completes from every state, changes A only, and A becomes the exact sum if that is below 256, else the sum
less 256 (R84). That it wraps is the spec's decision D1 (log 8). `exec` starts with PC past the instruction (log 17)
and with MDR drawn already, so that it leaves MDR alone (log 3): both are the model's choices. -/
def Obligations.AddIsModulo256 : Prop :=
  ∀ s : State, ∃ v : Byte, exec .add s = .next { s with a := v } ∧
    v.toNat = if s.a.toNat + s.b.toNat < 256 then s.a.toNat + s.b.toNat else s.a.toNat + s.b.toNat - 256

/-- `n` ADDs in a row add B `n` times modulo 256 and leave everything but A as it was (R82). That ADD wraps is the
spec's decision D1 (log 8). `exec` starts with PC past the instruction (log 17) and with MDR drawn already, so that it
leaves MDR alone (log 3): both are the model's choices. -/
def Obligations.RepeatedAddAddsMultiplesOfB : Prop :=
  ∀ (n : Nat) (s : State), ∃ v : Byte,
    execAll (List.replicate n .add) s = .next { s with a := v } ∧
    v.toNat = (s.a.toNat + n * s.b.toNat) % 256

/-- JMP, HALT and NOOP complete from every state: JMP changes PC only, HALT changes HALTED only, NOOP changes nothing
(R85, R86, R87). `exec` starts with PC past the instruction (log 17) and with MDR drawn already, so that it leaves MDR
alone (log 3): both are the model's choices. -/
def Obligations.JmpHaltNoopEffects : Prop :=
  ∀ (addr : Byte) (s : State),
    exec (.jmp addr) s = .next { s with pc := addr.setWidth 9 } ∧
    exec .halt s = .next { s with halted := true } ∧
    exec .noop s = .next s

/-- ENABLE_INTERRUPTS completes from every state and changes IE only (R95). IRET completes from every state: it sets
SP to `min(SP + 1, C - 1)`, PC to the byte there, IE to 1, and changes nothing else (R96). `exec` starts with PC past
the instruction (log 17) and with MDR drawn already, so that it leaves MDR alone (log 3): both are the model's
choices. That the pop leaves MAR alone is the spec's decision D9 (log 9). -/
def Obligations.EnableAndIretEffects : Prop :=
  ∀ s : State,
    exec .enableInterrupts s = .next { s with ie := true } ∧
    ∃ n v : Byte, n.toNat = min (s.sp.toNat + 1) (s.mem.capacity - 1) ∧ s.mem.read? n.toNat = some v ∧
      exec .iret s = .next { s with sp := n, pc := v.setWidth 9, ie := true }

/-- PUSH_A and PUSH_B complete from every state: the cell at SP, if there is one, holds the register, SP is one less
or stays 0, and every other cell and every other register is unchanged (R40, R90, R91). `exec` starts with PC past the
instruction (log 17) and with MDR drawn already, so that it leaves MDR alone (log 3): both are the model's choices.
That a push leaves MAR alone is the spec's decision D9 (log 9). -/
def Obligations.PushStoresBelowTheStack : Prop :=
  ∀ s : State, ∃ n : Byte, n.toNat = s.sp.toNat - 1 ∧
    (∃ m : Memory, exec .pushA s = .next { s with sp := n, mem := m } ∧ m.capacity = s.mem.capacity ∧
      ∀ p, m.read? p = if p = s.sp.toNat ∧ p < s.mem.capacity then some s.a else s.mem.read? p) ∧
    (∃ m : Memory, exec .pushB s = .next { s with sp := n, mem := m } ∧ m.capacity = s.mem.capacity ∧
      ∀ p, m.read? p = if p = s.sp.toNat ∧ p < s.mem.capacity then some s.b else s.mem.read? p)

/-- POP_A and POP_B complete from every state: SP is one more or stays at `C - 1`, the register holds the byte there,
and nothing else changes, memory included (R41, R92, R93). `exec` starts with PC past the instruction (log 17) and
with MDR drawn already, so that it leaves MDR alone (log 3): both are the model's choices. That a pop leaves MAR alone
is the spec's decision D9 (log 9). -/
def Obligations.PopReadsAboveTheStack : Prop :=
  ∀ s : State, ∃ n v : Byte, n.toNat = min (s.sp.toNat + 1) (s.mem.capacity - 1) ∧
    s.mem.read? n.toNat = some v ∧
    exec .popA s = .next { s with a := v, sp := n } ∧ exec .popB s = .next { s with b := v, sp := n }

/-- Every instruction completes from every state, but for an absolute load past the last cell, which stops with
LoadOutOfRange (the spec's decision D6, log 6); so every instruction that is well-formed for the capacity completes. -/
def Obligations.EveryInstructionCompletes : Prop :=
  ∀ (i : Instr) (s : State),
    ((∃ t, exec i s = .next t) ∨
      ∃ addr : Byte, (i = .loadAMem addr ∨ i = .loadBMem addr) ∧ s.mem.capacity ≤ addr.toNat ∧
        exec i s = .fault (.loadOutOfRange addr)) ∧
    (i.wf s.mem.capacity = true → ∃ t, exec i s = .next t)

/-! ### Each instruction as one TICK, with the bytes of its default encoding -/

/-- LOAD_A_VAL and LOAD_B_VAL as one TICK (R75, R76), and the fault of an operand byte past the top. That fault is the
spec's decision D6 (log 6), that PC does not wrap D5 (log 5), that the operand read leaves MAR alone D9 (log 9). The
opcode values are the spec's defaults, its decision D3 (log 4). -/
def Obligations.TickLoadImmediate : Prop :=
  ∀ (s : State) (v : Byte), s.Fetches →
    (s.mem.read? s.pc.toNat = some 0x01#8 → s.mem.read? (s.pc.toNat + 1) = some v →
      ∃ t, step s = .next t ∧ t.apartFromMdr s =
        { s with a := v, ir := 0x01#8, mar := s.pc.setWidth 8, pc := s.pc + 2#9 }) ∧
    (s.mem.read? s.pc.toNat = some 0x02#8 → s.mem.read? (s.pc.toNat + 1) = some v →
      ∃ t, step s = .next t ∧ t.apartFromMdr s =
        { s with b := v, ir := 0x02#8, mar := s.pc.setWidth 8, pc := s.pc + 2#9 }) ∧
    ((s.mem.read? s.pc.toNat = some 0x01#8 ∨ s.mem.read? s.pc.toNat = some 0x02#8) →
      s.mem.read? (s.pc.toNat + 1) = none → step s = .fault (.operandOutOfRange (s.pc + 1#9)))

/-- LOAD_A_MEM and LOAD_B_MEM as one TICK; past the last cell LoadOutOfRange (R77, R78; the spec's decision D6, log
6). That PC does not wrap is the spec's decision D5 (log 5). That the operand read and the data read leave MAR alone
is the spec's decision D9 (log 9). The opcode values are the spec's defaults, its decision D3 (log 4). -/
def Obligations.TickLoadAbsolute : Prop :=
  ∀ (s : State) (addr : Byte), s.Fetches → s.mem.read? (s.pc.toNat + 1) = some addr →
    (s.mem.read? s.pc.toNat = some 0x03#8 → ∀ v, s.mem.read? addr.toNat = some v →
      ∃ t, step s = .next t ∧ t.apartFromMdr s =
        { s with a := v, ir := 0x03#8, mar := s.pc.setWidth 8, pc := s.pc + 2#9 }) ∧
    (s.mem.read? s.pc.toNat = some 0x04#8 → ∀ v, s.mem.read? addr.toNat = some v →
      ∃ t, step s = .next t ∧ t.apartFromMdr s =
        { s with b := v, ir := 0x04#8, mar := s.pc.setWidth 8, pc := s.pc + 2#9 }) ∧
    ((s.mem.read? s.pc.toNat = some 0x03#8 ∨ s.mem.read? s.pc.toNat = some 0x04#8) →
      s.mem.read? addr.toNat = none → step s = .fault (.loadOutOfRange addr))

/-- STORE_A and STORE_B as one TICK (R79, R80), over any cell, their own bytes and the stack among them, and ignored
past the last cell; and the fault of an operand byte past the top. That fault is the spec's decision D6 (log 6), that
PC does not wrap D5 (log 5), that the operand read and the store leave MAR alone D9 (log 9). The opcode values are the
spec's defaults, its decision D3 (log 4). -/
def Obligations.TickStore : Prop :=
  ∀ (s : State) (addr : Byte), s.Fetches →
    (s.mem.read? s.pc.toNat = some 0x05#8 → s.mem.read? (s.pc.toNat + 1) = some addr →
      ∃ (t : State) (m : Memory), step s = .next t ∧ t.apartFromMdr s =
          { s with mem := m, ir := 0x05#8, mar := s.pc.setWidth 8, pc := s.pc + 2#9 } ∧
        m.capacity = s.mem.capacity ∧
        ∀ p, m.read? p = if p = addr.toNat ∧ p < s.mem.capacity then some s.a else s.mem.read? p) ∧
    (s.mem.read? s.pc.toNat = some 0x06#8 → s.mem.read? (s.pc.toNat + 1) = some addr →
      ∃ (t : State) (m : Memory), step s = .next t ∧ t.apartFromMdr s =
          { s with mem := m, ir := 0x06#8, mar := s.pc.setWidth 8, pc := s.pc + 2#9 } ∧
        m.capacity = s.mem.capacity ∧
        ∀ p, m.read? p = if p = addr.toNat ∧ p < s.mem.capacity then some s.b else s.mem.read? p) ∧
    ((s.mem.read? s.pc.toNat = some 0x05#8 ∨ s.mem.read? s.pc.toNat = some 0x06#8) →
      s.mem.read? (s.pc.toNat + 1) = none → step s = .fault (.operandOutOfRange (s.pc + 1#9)))

/-- ADD as one TICK: A holds the sum modulo 256, no flag is touched (R82; the wrap of A is the spec's decision D1, log
8, that PC does not wrap D5, log 5). The opcode values are the spec's defaults, its decision D3 (log 4). -/
def Obligations.TickAdd : Prop :=
  ∀ s : State, s.Fetches → s.mem.read? s.pc.toNat = some 0x07#8 →
    ∃ (t : State) (v : Byte), step s = .next t ∧ v.toNat = (s.a.toNat + s.b.toNat) % 256 ∧
      t.apartFromMdr s = { s with a := v, ir := 0x07#8, mar := s.pc.setWidth 8, pc := s.pc + 1#9 }

/-- JMP, HALT and NOOP as one TICK (R85, R86, R87). JMP goes anywhere; past the top the next fetch faults, and so does
its own operand byte past the top. After HALT every later TICK is a no-op and no event but RESET starts the core
again; HALT in the last cell halts like any other. The two faults are the spec's decision D6 (log 6), that PC does not
wrap D5 (log 5), that the operand read leaves MAR alone D9 (log 9). The opcode values are the spec's defaults, its
decision D3 (log 4). -/
def Obligations.TickControl : Prop :=
  ∀ s : State, s.Fetches →
    (∀ addr : Byte, s.mem.read? s.pc.toNat = some 0x08#8 → s.mem.read? (s.pc.toNat + 1) = some addr →
      ∃ t, step s = .next t ∧ t.apartFromMdr s =
        { s with ir := 0x08#8, mar := s.pc.setWidth 8, pc := addr.setWidth 9 } ∧
        (s.mem.capacity ≤ addr.toNat → step t = .fault (.fetchOutOfRange (addr.setWidth 9)))) ∧
    (s.mem.read? s.pc.toNat = some 0x08#8 → s.mem.read? (s.pc.toNat + 1) = none →
      step s = .fault (.operandOutOfRange (s.pc + 1#9))) ∧
    (s.mem.read? s.pc.toNat = some 0x0F#8 →
      ∃ t, step s = .next t ∧ step t = .next t ∧
        (∀ e u, (∀ c, e ≠ .reset c) → event e t = .next u → u.halted = true) ∧ t.apartFromMdr s =
        { s with halted := true, ir := 0x0F#8, mar := s.pc.setWidth 8, pc := s.pc + 1#9 }) ∧
    (s.mem.read? s.pc.toNat = some 0x10#8 →
      ∃ t, step s = .next t ∧ t.apartFromMdr s =
        { s with ir := 0x10#8, mar := s.pc.setWidth 8, pc := s.pc + 1#9 })

/-- PUSH_A and PUSH_B as one TICK, for every SP below the capacity, 0 included (R90, R91). That PC does not wrap is
the spec's decision D5 (log 5). That a push leaves MAR alone is the spec's decision D9 (log 9). The opcode values are
the spec's defaults, its decision D3 (log 4). -/
def Obligations.TickPush : Prop :=
  ∀ s : State, s.Fetches → s.sp.toNat < s.mem.capacity → ∃ n : Byte, n.toNat = s.sp.toNat - 1 ∧
    (s.mem.read? s.pc.toNat = some 0x0B#8 →
      ∃ (t : State) (m : Memory), step s = .next t ∧ t.apartFromMdr s =
          { s with sp := n, mem := m, ir := 0x0B#8, mar := s.pc.setWidth 8, pc := s.pc + 1#9 } ∧
        m.capacity = s.mem.capacity ∧
        ∀ p, m.read? p = if p = s.sp.toNat then some s.a else s.mem.read? p) ∧
    (s.mem.read? s.pc.toNat = some 0x0C#8 →
      ∃ (t : State) (m : Memory), step s = .next t ∧ t.apartFromMdr s =
          { s with sp := n, mem := m, ir := 0x0C#8, mar := s.pc.setWidth 8, pc := s.pc + 1#9 } ∧
        m.capacity = s.mem.capacity ∧
        ∀ p, m.read? p = if p = s.sp.toNat then some s.b else s.mem.read? p)

/-- POP_A and POP_B as one TICK, an empty stack included (R92, R93). That PC does not wrap is the spec's decision D5
(log 5). That a pop leaves MAR alone is the spec's decision D9 (log 9). The opcode values are the spec's defaults, its
decision D3 (log 4). -/
def Obligations.TickPop : Prop :=
  ∀ s : State, s.Fetches → ∃ n v : Byte, n.toNat = min (s.sp.toNat + 1) (s.mem.capacity - 1) ∧
    s.mem.read? n.toNat = some v ∧
    (s.mem.read? s.pc.toNat = some 0x0D#8 →
      ∃ t, step s = .next t ∧ t.apartFromMdr s =
        { s with a := v, sp := n, ir := 0x0D#8, mar := s.pc.setWidth 8, pc := s.pc + 1#9 }) ∧
    (s.mem.read? s.pc.toNat = some 0x0E#8 →
      ∃ t, step s = .next t ∧ t.apartFromMdr s =
        { s with b := v, sp := n, ir := 0x0E#8, mar := s.pc.setWidth 8, pc := s.pc + 1#9 })

/-- ENABLE_INTERRUPTS and IRET as one TICK; and if a code is pending when one of them completes, the very next TICK
services it before anything is fetched (R95, R96). That PC does not wrap is the spec's decision D5 (log 5). That the
pop of IRET leaves MAR alone is the spec's decision D9 (log 9). The opcode values are the spec's defaults, its
decision D3 (log 4). -/
def Obligations.TickInterruptControl : Prop :=
  ∀ s : State, s.Fetches →
    (s.mem.read? s.pc.toNat = some 0x09#8 →
      ∃ t, step s = .next t ∧ (∀ c rest, s.iq = c :: rest → t.Services c rest) ∧ t.apartFromMdr s =
        { s with ie := true, ir := 0x09#8, mar := s.pc.setWidth 8, pc := s.pc + 1#9 }) ∧
    (s.mem.read? s.pc.toNat = some 0x0A#8 →
      ∃ (t : State) (n v : Byte), n.toNat = min (s.sp.toNat + 1) (s.mem.capacity - 1) ∧
        s.mem.read? n.toNat = some v ∧ step s = .next t ∧ (∀ c rest, s.iq = c :: rest → t.Services c rest) ∧
        t.apartFromMdr s =
          { s with ie := true, sp := n, ir := 0x0A#8, mar := s.pc.setWidth 8, pc := v.setWidth 9 })

/-! ### The faults of a TICK (spec/60_exceptions.md R120) -/

/-- A TICK faults exactly when R120's table says, with exactly that fault, for every capacity; and no TICK is refused.
The faults are the spec's decisions D5, D6, D15, D22 (log 5, 6, 7, 22). The opcode values are the spec's defaults, its
decision D3 (log 4). -/
def Obligations.TickFaultsExactlyWhenStated : Prop :=
  ∀ s : State, (∀ r, step s ≠ .refused r) ∧
    ∀ f : Fault, step s = .fault f ↔ s.halted = false ∧
      ((∃ c rest, s.ie = true ∧ s.iq = c :: rest ∧
          ((255 < s.pc.toNat ∧ f = .pcNotByte s.pc) ∨
           (s.pc.toNat ≤ 255 ∧ s.mem.capacity ≤ c.toNat ∧ f = .vectorOutOfRange c))) ∨
       ((s.ie = false ∨ s.iq = []) ∧
          ((s.mem.capacity ≤ s.pc.toNat ∧ f = .fetchOutOfRange s.pc) ∨
           (∃ o : Op, o.hasOperand = true ∧ s.mem.read? s.pc.toNat = some (defaultOpcodes o) ∧
              s.pc.toNat + 1 = s.mem.capacity ∧ f = .operandOutOfRange (s.pc + 1#9)) ∨
           (∃ addr : Byte, (s.mem.read? s.pc.toNat = some 0x03#8 ∨ s.mem.read? s.pc.toNat = some 0x04#8) ∧
              s.mem.read? (s.pc.toNat + 1) = some addr ∧ s.mem.capacity ≤ addr.toNat ∧
              f = .loadOutOfRange addr))))

/-- With the capacity of this hardware no TICK faults while PC is at most 254, and at 255 only the fetch of a two-byte
opcode does (R120, R136; D5, D6, D15, log 5, 6, 7). The opcode values are the spec's defaults, its decision D3 (log
4). -/
def Obligations.NoFaultBelowTheTopOfMemory : Prop :=
  ∀ s : State, s.mem.capacity = 256 →
    (s.pc.toNat ≤ 254 → ∃ t, step s = .next t) ∧
    (s.pc.toNat = 255 → (∃ t, step s = .next t) ∨
      (s.Fetches ∧ ∃ o : Op, o.hasOperand = true ∧ s.mem.read? 255 = some (defaultOpcodes o) ∧
        step s = .fault (.operandOutOfRange 256#9)))

/-- PC comes to stand past 255 only by being incremented over the top: a fetch of a one-byte instruction or
unrecognised byte at 255, or of a two-byte instruction at 254 (R24, R61; D5, log 5). The opcode values are the spec's
defaults, its decision D3 (log 4). -/
def Obligations.PcPassesTheTopByIncrementOnly : Prop :=
  ∀ s t : State, s.halted = false → step s = .next t → 255 < t.pc.toNat →
    t.pc.toNat = 256 ∧ s.Fetches ∧ ∃ b : Byte, s.mem.read? s.pc.toNat = some b ∧
      s.pc.toNat + lengthAt defaultOpcodes b = 256 ∧ b ≠ 0x08#8 ∧ b ≠ 0x0A#8

/-! ### Interrupts (spec/60_exceptions.md) -/

/-- R103: a request appends its code unless it is pending already, and changes nothing else, whatever IE and HALTED hold
(on a halted core this is the spec's decision D10, log 12); a second request changes nothing. -/
def Obligations.RequestsQueueAndCoalesce : Prop :=
  ∀ (c : Byte) (s : State), ∃ t : State, event (.irq c) s = .next t ∧
    t = { s with iq := t.iq } ∧ (c ∈ s.iq → t.iq = s.iq) ∧ (c ∉ s.iq → t.iq = s.iq ++ [c]) ∧
    event (.irq c) t = .next t

/-- Interrupt service (R106): a TICK that starts running with IE = 1 and a code pending, PC a byte and the vector a cell,
removes the oldest code, clears IE, stores PC at SP, lowers SP, and sets PC to the vector, read after the store. Nothing
else changes: that IR and MAR do not is the spec's decision D12 (log 9). -/
def Obligations.ServiceEntersTheHandler : Prop :=
  ∀ (s : State) (c : Byte) (rest : List Byte), s.Services c rest →
    s.sp.toNat < s.mem.capacity → s.pc.toNat ≤ 255 → c.toNat < s.mem.capacity →
    ∃ (t : State) (n v : Byte) (m : Memory), step s = .next t ∧ n.toNat = s.sp.toNat - 1 ∧
      m.capacity = s.mem.capacity ∧
      (∀ p, m.read? p = if p = s.sp.toNat then some (s.pc.setWidth 8) else s.mem.read? p) ∧
      m.read? c.toNat = some v ∧
      t.apartFromMdr s = { s with iq := rest, ie := false, sp := n, mem := m, pc := v.setWidth 9 }

/-- A request made to a running core with IE = 1 and nothing pending is serviced by the very next TICK, which goes to the
address in the vector cell (R112, R107). -/
def Obligations.RequestIsServicedByTheNextTick : Prop :=
  ∀ (s : State) (c : Byte), s.halted = false → s.ie = true → s.iq = [] → s.pc.toNat ≤ 255 →
    c.toNat < s.mem.capacity →
    ∃ t u, event (.irq c) s = .next t ∧ step t = .next u ∧ u.iq = [] ∧ u.ie = false ∧
      ∃ v : Byte, u.mem.read? c.toNat = some v ∧ u.pc = v.setWidth 9 ∧
        (c.toNat ≠ s.sp.toNat → s.mem.read? c.toNat = some v)

/-- R109: an IRET executed with SP as service left it takes the interrupted program up again: PC is the address service
found, SP is restored, IE is 1, and A and B are what the handler left. -/
def Obligations.IretResumesTheInterruptedProgram : Prop :=
  ∀ (s t h : State) (c : Byte) (rest : List Byte), s.Services c rest → s.sp.toNat < s.mem.capacity →
    1 ≤ s.sp.toNat → step s = .next t →
    h.sp = t.sp → h.mem.capacity = t.mem.capacity → h.mem.read? s.sp.toNat = t.mem.read? s.sp.toNat →
    ∃ u, exec .iret h = .next u ∧ u.pc = s.pc ∧ u.sp = s.sp ∧ u.ie = true ∧ u.a = h.a ∧ u.b = h.b ∧ u.mem = h.mem

/-- After an IRET, if anything is pending, the second service comes before any instruction of the interrupted program,
and pushes the very address the IRET popped (R110). That this service leaves IR alone, so that IR still holds the
IRET, is the spec's decision D12 (R106, log 9). The opcode values are the spec's defaults, its decision D3 (log 4). -/
def Obligations.BackToBackServiceAfterIret : Prop :=
  ∀ (s : State) (c : Byte) (rest : List Byte), s.Fetches → s.iq = c :: rest →
    s.mem.read? s.pc.toNat = some 0x0A#8 → c.toNat < s.mem.capacity →
    ∃ t u, step s = .next t ∧ step t = .next u ∧ u.iq = rest ∧ u.ie = false ∧ u.ir = 0x0A#8 ∧
      u.a = s.a ∧ u.b = s.b ∧ t.pc.toNat ≤ 255 ∧ u.mem.read? t.sp.toNat = some (t.pc.setWidth 8)

/-! ### The stack (spec/20_memory.md R40 to R42, spec/44_stack.md R94) -/

/-- Away from the bounds a push followed at once by a pop of the same register restores everything but the cell at the
old SP, which holds the register (R94). `exec` starts with PC past the instruction (log 17) and with MDR drawn
already, so that it leaves MDR alone (log 3): both are the model's choices. That a push and a pop leave MAR alone is
the spec's decision D9 (log 9). -/
def Obligations.PushThenPopRestores : Prop :=
  ∀ s : State, 1 ≤ s.sp.toNat → s.sp.toNat < s.mem.capacity →
    (∃ t u, exec .pushA s = .next t ∧ exec .popA t = .next u ∧ u = { s with mem := u.mem } ∧
      ∀ p, u.mem.read? p = if p = s.sp.toNat then some s.a else s.mem.read? p) ∧
    (∃ t u, exec .pushB s = .next t ∧ exec .popB t = .next u ∧ u = { s with mem := u.mem } ∧
      ∀ p, u.mem.read? p = if p = s.sp.toNat then some s.b else s.mem.read? p)

/-- At the bounds the stack saturates and says nothing (R42): a push at SP = 0 rewrites cell 0 and leaves SP 0, and a pop
after it returns cell 1; a pop at SP = C - 1 leaves SP and returns cell C - 1. -/
def Obligations.StackSaturatesAtItsBounds : Prop :=
  ∀ s : State,
    (s.sp = 0#8 → 2 ≤ s.mem.capacity →
      ∃ t u, exec .pushA s = .next t ∧ t.sp = 0#8 ∧ t.mem.read? 0 = some s.a ∧
        exec .popB t = .next u ∧ u.sp = 1#8 ∧ s.mem.read? 1 = some u.b) ∧
    (s.sp.toNat = s.mem.capacity - 1 →
      ∃ u, exec .popA s = .next u ∧ u.sp = s.sp ∧ s.mem.read? (s.mem.capacity - 1) = some u.a)

/-- As many bytes as there is room for come back in the reverse order, with SP as it was (R42, R94). -/
def Obligations.StackIsLastInFirstOut : Prop :=
  ∀ (vs : List Byte) (s : State), vs.length ≤ s.sp.toNat → s.sp.toNat < s.mem.capacity →
    (popAll vs.length (pushAll vs s)).1 = vs.reverse ∧ (popAll vs.length (pushAll vs s)).2.sp = s.sp ∧
    ∀ p, s.sp.toNat < p → (pushAll vs s).mem.read? p = s.mem.read? p

/-- PUSH_A and then IRET is a jump to the address in A that also enables interrupts (R88, R96). -/
def Obligations.PushThenIretIsAComputedJump : Prop :=
  ∀ s : State, 1 ≤ s.sp.toNat → s.sp.toNat < s.mem.capacity →
    ∃ t u, exec .pushA s = .next t ∧ exec .iret t = .next u ∧ u.pc = s.a.setWidth 9 ∧ u.ie = true ∧
      u.sp = s.sp ∧ u.a = s.a ∧ u.b = s.b

/-! ### Memory (spec/20_memory.md, spec/80_host_interface.md) -/

/-- R32: a write below the capacity puts its byte into that cell and into no other; a write from the capacity on does
nothing. The capacity stays. -/
def Obligations.MemoryWriteChangesItsCellOnly : Prop :=
  ∀ (m : Memory) (a : Nat) (v : Byte),
    (a < m.capacity → (m.write a v).read? a = some v) ∧ (∀ p, p ≠ a → (m.write a v).read? p = m.read? p) ∧
    (m.capacity ≤ a → m.write a v = m) ∧ (m.write a v).capacity = m.capacity

/-- R147: LOAD writes its bytes one after the other from the base on, drops those past the last cell, and sets PC to the
base, for an empty list as well; nothing else changes, on a halted core either (the spec's decisions D13, D14, D24, log
13). -/
def Obligations.LoadWritesTheImageAndMovesPc : Prop :=
  ∀ (bytes : List Byte) (base : Byte) (s : State), ∃ (t : State) (m : Memory),
    event (.load bytes base) s = .next t ∧ t = { s with mem := m, pc := base.setWidth 9 } ∧
    m.capacity = s.mem.capacity ∧
    ∀ p, m.read? p =
      if base.toNat ≤ p ∧ p < base.toNat + bytes.length ∧ p < s.mem.capacity then bytes[p - base.toNat]?
      else s.mem.read? p

/-- What is stored is what a later fetch at that address reads: a store, a push, or the PC byte service pushes is seen
by the fetch with no fence (R46). The fetch is read off IR and MAR at the end of its TICK; that the operand and data
accesses of that TICK leave them alone is the spec's decision D9 (R17, log 9). -/
def Obligations.StoreIsSeenByTheNextFetch : Prop :=
  ∀ (s t u : State) (addr v : Byte), addr.toNat < s.mem.capacity →
    ((exec (.storeA addr) s = .next t ∧ v = s.a) ∨ (exec (.storeB addr) s = .next t ∧ v = s.b) ∨
      (exec .pushA s = .next t ∧ addr = s.sp ∧ v = s.a) ∨ (exec .pushB s = .next t ∧ addr = s.sp ∧ v = s.b) ∨
      ((∃ c rest, s.Services c rest) ∧ step s = .next t ∧ addr = s.sp ∧ v = s.pc.setWidth 8)) →
    t.Fetches → step { t with pc := addr.setWidth 9 } = .next u → u.ir = v ∧ u.mar = addr

/-- What RESET leaves (R23, R125), for the state right after reset and for a RESET with any admitted capacity at any
time; a capacity outside 1..256 is refused (R6). That IQ is empty is the spec's decision D19 (log 11); the contents of
memory are the free value `Config.memReset` (log 2). That RESET may occur at any time is D21 (log 15), the range of
the capacity D2 (log 1). -/
def Obligations.ResetLeavesTheStatedValues : Prop :=
  (State.reset.a = 0#8 ∧ State.reset.b = 0#8 ∧ State.reset.ir = 0#8 ∧ State.reset.mar = 0#8 ∧
    State.reset.mdr = 0#8 ∧ State.reset.pc = 0#9 ∧ State.reset.sp = 255#8 ∧ State.reset.ie = false ∧
    State.reset.halted = false ∧ State.reset.iq = [] ∧ State.reset.mem.capacity = 256 ∧
    ∀ p, p < 256 → State.reset.mem.read? p = some (Config.memReset p)) ∧
  ∀ (c : Nat) (s : State),
    (1 ≤ c ∧ c ≤ 256 →
      ∃ t, event (.reset c) s = .next t ∧ t.a = 0#8 ∧ t.b = 0#8 ∧ t.ir = 0#8 ∧ t.mar = 0#8 ∧ t.mdr = 0#8 ∧
        t.pc = 0#9 ∧ t.sp.toNat = c - 1 ∧ t.ie = false ∧ t.halted = false ∧ t.iq = [] ∧ t.mem.capacity = c ∧
        ∀ p, p < c → t.mem.read? p = some (Config.memReset p)) ∧
    (¬ (1 ≤ c ∧ c ≤ 256) → event (.reset c) s = .refused (.capacityNotAdmitted c))

/-! ### Invariants and whole-machine rules -/

/-- The state right after reset meets the invariants of R24 (that IQ is empty is the spec's decision D19, log 11).
Memory's canonical form is the model's own (log 2). -/
def Obligations.ResetMeetsTheInvariants : Prop := State.reset.Inv

/-- Every TICK, for any opcode values, keeps the invariants of R24: SP stays below the capacity, PC stays at most 256,
no code is pending twice, memory keeps its canonical form. That PC does not wrap is the spec's decision D5 (log 5).
Memory's canonical form is the model's own (log 2). -/
def Obligations.TickKeepsTheInvariants : Prop :=
  ∀ (t : OpcodeTable) (s s' : State), s.Inv → tickWith t s = .next s' → s'.Inv

/-- The other three events keep the invariants of R24 as well. That IQ is empty after RESET is D19 (log 11); memory's
canonical form is the model's own (log 2). -/
def Obligations.HostEventsKeepTheInvariants : Prop :=
  ∀ (s s' : State), s.Inv →
    (∀ c, event (.reset c) s = .next s' → s'.Inv) ∧
    (∀ bytes base, event (.load bytes base) s = .next s' → s'.Inv) ∧
    (∀ c, event (.irq c) s = .next s' → s'.Inv)

/-- In every state a run of events leads to, whatever the events and their order, the invariants of R24 hold, and no
more than 256 codes are pending (R19). That PC does not wrap is the spec's decision D5 (log 5). That IQ is empty after
RESET is D19 (log 11); memory's canonical form is the model's own (log 2). -/
def Obligations.ReachableStatesMeetTheInvariants : Prop :=
  ∀ s : State, Reachable s → s.Inv ∧ s.iq.length ≤ 256

/-- The frame of every instruction. IR, MAR, IQ and the capacity, and at this point MDR, are untouched by all; A is
changed by LOAD_A_VAL, LOAD_A_MEM, ADD and POP_A only, B by LOAD_B_VAL, LOAD_B_MEM and POP_B only, PC by JMP and IRET
only, SP by pushes, pops and IRET only, IE by ENABLE_INTERRUPTS and IRET only, HALTED by HALT only (R12, R15, R16,
R18, R19, R73). In memory a store changes no cell but the one at its address, a push no cell but the one at the SP it
found, and every other instruction none (R79, R80, R90, R91). That IR and MAR are left alone is the spec's decision D9
(log 9). That `exec` leaves MDR alone rests on the model's choice to draw its free value at the start of the TICK (log
3), since R17 leaves MDR unspecified after a running TICK; that PC is already past the instruction is the model's too
(log 17). -/
def Obligations.InstructionsChangeOnlyWhatTheyName : Prop :=
  ∀ (i : Instr) (s t : State), exec i s = .next t →
    t.ir = s.ir ∧ t.mar = s.mar ∧ t.mdr = s.mdr ∧ t.draws = s.draws ∧ t.iq = s.iq ∧
    t.mem.capacity = s.mem.capacity ∧
    (t.a ≠ s.a → (∃ v, i = .loadAVal v) ∨ (∃ addr, i = .loadAMem addr) ∨ i = .add ∨ i = .popA) ∧
    (t.b ≠ s.b → (∃ v, i = .loadBVal v) ∨ (∃ addr, i = .loadBMem addr) ∨ i = .popB) ∧
    (t.pc ≠ s.pc → (∃ addr, i = .jmp addr) ∨ i = .iret) ∧
    (t.sp ≠ s.sp → i = .pushA ∨ i = .pushB ∨ i = .popA ∨ i = .popB ∨ i = .iret) ∧
    (t.ie ≠ s.ie → t.ie = true ∧ (i = .enableInterrupts ∨ i = .iret)) ∧
    (t.halted ≠ s.halted → t.halted = true ∧ i = .halt) ∧
    (∀ addr : Byte, i = .storeA addr ∨ i = .storeB addr →
      ∀ p, p ≠ addr.toNat → t.mem.read? p = s.mem.read? p) ∧
    (i = .pushA ∨ i = .pushB → ∀ p, p ≠ s.sp.toNat → t.mem.read? p = s.mem.read? p) ∧
    ((∀ addr, i ≠ .storeA addr ∧ i ≠ .storeB addr) → i ≠ .pushA → i ≠ .pushB → t.mem = s.mem)

/-- R12: A is written by LOAD_A_VAL, LOAD_A_MEM, ADD and POP_A only, B by LOAD_B_VAL, LOAD_B_MEM and POP_B only; the
instructions that do not read a register do the same whatever it holds; and interrupt service, the LOAD and the IRQ
event and a halted TICK leave both alone. Whole next states are compared: `exec` starts with PC past the instruction
(log 17) and with MDR drawn already, so that it leaves MDR alone (log 3): both are the model's choices. -/
def Obligations.RegisterAccessMatrix : Prop :=
  (∀ (i : Instr) (s t : State), exec i s = .next t →
    (t.a ≠ s.a → i.op = .loadAVal ∨ i.op = .loadAMem ∨ i.op = .add ∨ i.op = .popA) ∧
    (t.b ≠ s.b → i.op = .loadBVal ∨ i.op = .loadBMem ∨ i.op = .popB)) ∧
  (∀ (i : Instr) (s : State) (x : Byte), i.op ≠ .storeA → i.op ≠ .add → i.op ≠ .pushA →
    exec i { s with a := x } =
      if i.op = .loadAVal ∨ i.op = .loadAMem ∨ i.op = .popA then exec i s
      else mapNext (fun t => { t with a := x }) (exec i s)) ∧
  (∀ (i : Instr) (s : State) (x : Byte), i.op ≠ .storeB → i.op ≠ .add → i.op ≠ .pushB →
    exec i { s with b := x } =
      if i.op = .loadBVal ∨ i.op = .loadBMem ∨ i.op = .popB then exec i s
      else mapNext (fun t => { t with b := x }) (exec i s)) ∧
  (∀ (s t : State), (∃ c rest, s.Services c rest) ∨ s.halted = true → step s = .next t → t.a = s.a ∧ t.b = s.b) ∧
  (∀ (e : Event) (s t : State), (∃ bytes base, e = .load bytes base) ∨ (∃ c, e = .irq c) → event e s = .next t →
    t.a = s.a ∧ t.b = s.b)

/-- IE changes in three ways and no other: ENABLE_INTERRUPTS or IRET sets it, interrupt service clears it, RESET
clears it (R16, R138). The opcode values are the spec's defaults, its decision D3 (log 4). -/
def Obligations.InterruptEnableChangesInThreeWays : Prop :=
  ∀ (e : Event) (s t : State), event e s = .next t → t.ie ≠ s.ie →
    (e = .tick ∧ s.Fetches ∧ t.ie = true ∧
      (s.mem.read? s.pc.toNat = some 0x09#8 ∨ s.mem.read? s.pc.toNat = some 0x0A#8)) ∨
    (e = .tick ∧ t.ie = false ∧ ∃ c, s.Services c t.iq) ∨
    (t.ie = false ∧ ∃ c, e = .reset c)

/-- HALTED is false after reset, executing HALT sets it, nothing else does, and no event but RESET clears it; a TICK
of a halted core does nothing (R18). `exec` starts with PC past the instruction (log 17) and with MDR drawn already,
so that it leaves MDR alone (log 3): both are the model's choices. That RESET may occur at any time is D21 (log 15).
The opcode values are the spec's defaults, its decision D3 (log 4). -/
def Obligations.HaltedIsSetByHaltOnly : Prop :=
  State.reset.halted = false ∧
  (∀ s : State, exec .halt s = .next { s with halted := true }) ∧
  (∀ s : State, s.halted = true → event .tick s = .next s) ∧
  (∀ (c : Nat) (s : State), 1 ≤ c ∧ c ≤ 256 → ∃ t, event (.reset c) s = .next t ∧ t.halted = false) ∧
  (∀ (e : Event) (s t : State), event e s = .next t → t.halted ≠ s.halted →
    (e = .tick ∧ s.Fetches ∧ t.halted = true ∧ s.mem.read? s.pc.toNat = some 0x0F#8) ∨
    (t.halted = false ∧ ∃ c, e = .reset c))

/-- Nothing wakes a halted core: after any events but RESET it is still halted, with A, B, IR, MAR, MDR, SP and IE as
they were; and PC and memory too unless one of them was a LOAD, IQ unless one was an IRQ (R86, R119, R153). That LOAD
on a halted core acts, and on memory and PC only, is the spec's decision D13 (log 13). -/
def Obligations.NothingWakesAHaltedCore : Prop :=
  ∀ (es : List Event) (s t : State), s.halted = true → (∀ c, Event.reset c ∉ es) →
    runEvents defaultOpcodes es s = .next t →
    t = { s with pc := t.pc, mem := t.mem, iq := t.iq } ∧
    ((∀ bytes base, Event.load bytes base ∉ es) → t.pc = s.pc ∧ t.mem = s.mem) ∧
    ((∀ c, Event.irq c ∉ es) → t.iq = s.iq)

/-- IQ is first in, first out: an IRQ appends at its end, a service takes its head, RESET empties it (D19, log 11), and
nothing else changes it (R19, R104, R105). -/
def Obligations.QueueIsFirstInFirstOut : Prop :=
  ∀ (e : Event) (s t : State), event e s = .next t →
    t.iq = s.iq ∨ (∃ c, e = .irq c ∧ c ∉ s.iq ∧ t.iq = s.iq ++ [c]) ∨
    (∃ c, e = .tick ∧ s.Services c t.iq ∧ t.ie = false) ∨ (t.iq = [] ∧ ∃ c, e = .reset c)

/-- IR and MAR are written by the opcode fetch only: IR takes the byte at PC, MAR the value PC had (R17). That nothing else
writes them is the spec's decision D9 and D12 (log 9). -/
def Obligations.LatchesAreWrittenByTheFetchOnly : Prop :=
  ∀ (e : Event) (s t : State), event e s = .next t →
    (t.ir = s.ir ∧ t.mar = s.mar) ∨
    (e = .tick ∧ s.Fetches ∧ s.mem.read? s.pc.toNat = some t.ir ∧ t.mar = s.pc.setWidth 8) ∨
    (t.ir = 0#8 ∧ t.mar = 0#8 ∧ ∃ c, e = .reset c)

/-- Nothing is computed from MAR or MDR, and IR is used in the TICK that wrote it only (R17): two states that differ in the
latches only do the same under every run of events, the latches apart. A RESET among the events leaves the same
memory in both runs, since MEM_RESET is one function (R5, log 2). -/
def Obligations.LatchesInfluenceNothing : Prop :=
  ∀ (t : OpcodeTable) (es : List Event) (s s' : State), s.withoutLatches = s'.withoutLatches →
    mapNext State.withoutLatches (runEvents t es s) = mapNext State.withoutLatches (runEvents t es s')

/-- What the host sees, MDR apart, decides what it will see, MDR apart: two states with the same surface but for MDR have
the same surface but for MDR after every run of events. MDR is left out because its value is free after each running TICK
(R17, log 3). In particular it makes no difference whether a byte of memory was written or stands there since reset (R127,
R151). A RESET among the events leaves the same memory in both runs, since MEM_RESET is one function (R5, log 2). -/
def Obligations.SurfaceDecidesTheRun : Prop :=
  ∀ (t : OpcodeTable) (es : List Event) (s s' : State), s.surface.withoutMdr = s'.surface.withoutMdr →
    mapNext (fun u => u.surface.withoutMdr) (runEvents t es s) =
      mapNext (fun u => u.surface.withoutMdr) (runEvents t es s')
end

