-- ==== Sys2Proof/Laws/Assembly.lean ====
section
/-! SUPPORT. What the assembly notation of spec/30_encoding.md R59 comes to: which labels there are and where they stand,
how many bytes a line places, and the image as the lines' pieces one after the other. -/
namespace Sys2Proof.Machine

/-- The names `labelsFrom` finds are the labels of the lines, in order, wherever they are placed. -/
theorem labelsFrom_names (a : Nat) (ls : List AsmLine) : (labelsFrom a ls).map Prod.fst = ls.filterMap AsmLine.label := by
  induction ls generalizing a with
  | nil => rfl
  | cons l r ih =>
    simp only [labelsFrom]
    cases h : l.label <;> simp [h, ih]

/-- A line that is admitted places as many bytes as `AsmLine.size` says. -/
theorem AsmLine.bytes_length {t L} {l : AsmLine} {p} (h : l.bytes t L = some p) : p.length = l.size := by
  obtain ⟨lab, ins⟩ := l
  unfold AsmLine.bytes at h
  unfold AsmLine.size
  rcases ins with _ | ⟨o, _ | x⟩ | n <;> simp only at h ⊢
  · simp at h; simp [h]
  · cases ho : o.hasOperand <;> simp [ho] at h; subst h; simp [Op.length, ho]
  · cases ho : o.hasOperand <;> simp [ho] at h; obtain ⟨_, _, rfl⟩ := h; simp [Op.length, ho]
  · simp at h; obtain ⟨_, _, rfl⟩ := h; rfl

/-- The image is made of one piece per line, in order, each the bytes of its line. -/
theorem linesBytes_eq_some_iff {t L} (ls : List AsmLine) (bs : List Byte) :
    linesBytes t L ls = some bs ↔
    ∃ ps : List (List Byte), ps.flatten = bs ∧ List.Forall₂ (fun l p => l.bytes t L = some p) ls ps := by
  induction ls generalizing bs with
  | nil => simp [linesBytes, eq_comm]
  | cons l r ih =>
    simp only [linesBytes]
    constructor
    · intro h
      split at h
      · rename_i x y hx hy
        obtain ⟨ps, rfl, hp⟩ := (ih y).1 hy
        simp at h
        exact ⟨x :: ps, by simpa using h, .cons hx hp⟩
      · cases h
    · rintro ⟨ps, rfl, hp⟩
      cases hp with
      | cons hx hp =>
        rename_i p ps
        rw [hx, (ih _).2 ⟨ps, rfl, hp⟩]; simp

/-- In a list without repeated names, looking a name up finds the entry with that name. -/
theorem lookup_eq_some_iff {L : List (String × Nat)} (h : (L.map Prod.fst).Nodup) (n : String) (a : Nat) :
    L.lookup n = some a ↔ (n, a) ∈ L := by
  induction L with
  | nil => simp
  | cons x r ih =>
    obtain ⟨m, b⟩ := x
    simp at h
    rw [List.lookup_cons]
    by_cases hm : n = m
    · subst hm; simp
      constructor
      · intro h; exact .inl h.symm
      · rintro (h1 | h1)
        · exact h1.symm
        · exact absurd h1 (h.1 a)
    · rw [show (n == m) = false by simpa using hm]; simpa [hm] using ih h.2

/-- A label stands at the base and all bytes placed before it (R59). -/
theorem mem_labelsFrom_iff (ls : List AsmLine) (ps : List (List Byte))
    (hs : List.Forall₂ (fun l p => p.length = l.size) ls ps) (base : Nat) (n : String) (a : Nat) :
    (n, a) ∈ labelsFrom base ls ↔ ∃ j d, ls[j]? = some d ∧ d.label = some n ∧ a = base + (ps.take j).flatten.length := by
  induction hs generalizing base with
  | nil => simp [labelsFrom]
  | @cons l p ls ps hl hr ih =>
    have : (n, a) ∈ labelsFrom base (l :: ls) ↔ (l.label = some n ∧ a = base) ∨ (n,a) ∈ labelsFrom (base + l.size) ls := by
      simp only [labelsFrom]
      cases l.label <;> simp [eq_comm]
    rw [this, ih]
    constructor
    · rintro (⟨h1, h2⟩ | ⟨j, d, h1, h2, h3⟩)
      · exact ⟨0, l, by simp, h1, by simp [h2]⟩
      · refine ⟨j+1, d, by simpa using h1, h2, ?_⟩
        simp [hl] at *; omega
    · rintro ⟨j, d, h1, h2, h3⟩
      cases j with
      | zero => simp at h1; subst h1; exact .inl ⟨h2, by simpa using h3⟩
      | succ j => refine .inr ⟨j, d, by simpa using h1, h2, ?_⟩; simp [hl] at *; omega

end Sys2Proof.Machine
end

