-- ==== Sys2Proof/Laws/Decode.lean ====
section
/-! SUPPORT. The small facts about the decoder's parts (spec/30_encoding.md): the mnemonic, the operand and the format
of an instruction agree, and an opcode value that is recognised is one of the table's. -/
namespace Sys2Proof

theorem Op.mem_all (o : Op) : o ∈ Op.all := by cases o <;> decide

theorem defaultOpcodes_wf : OpcodeTable.wf defaultOpcodes := by decide

/-- A recognised byte is the opcode value of its mnemonic. -/
theorem decodeOpcode_some {t : OpcodeTable} {b : Byte} {o : Op} (h : decodeOpcode t b = some o) : t o = b := by
  simpa using List.find?_some h

/-- An unrecognised byte is none of the 16 opcode values (R55, R56). -/
theorem decodeOpcode_none {t : OpcodeTable} {b : Byte} : decodeOpcode t b = none ↔ ∀ o, t o ≠ b := by
  simp [decodeOpcode, List.find?_eq_none, Op.mem_all]

/-- With pairwise distinct values, two mnemonics do not share one. -/
theorem OpcodeTable.wf.inj {t : OpcodeTable} (h : t.wf) {o p : Op} (e : t o = t p) : o = p :=
  List.inj_on_of_nodup_map h (Op.mem_all o) (Op.mem_all p) e

/-- With pairwise distinct values, each value is recognised as its mnemonic. -/
theorem decodeOpcode_value {t : OpcodeTable} (h : t.wf) (o : Op) : decodeOpcode t (t o) = some o := by
  cases hd : decodeOpcode t (t o) with
  | none => exact absurd rfl (decodeOpcode_none.1 hd o)
  | some p => rw [h.inj (decodeOpcode_some hd)]

@[simp] theorem toInstr_op (o : Op) (v : Byte) : (o.toInstr v).op = o := by cases o <;> rfl

/-- An instruction has an operand exactly when its mnemonic is of format D (R51, R52). -/
@[simp] theorem operand_isSome (i : Instr) : i.operand.isSome = i.op.hasOperand := by cases i <;> rfl

/-- The operand of the instruction a format D mnemonic makes of a byte is that byte. -/
theorem toInstr_operand (o : Op) (v : Byte) : (o.toInstr v).operand = if o.hasOperand then some v else none := by
  cases o <;> rfl

/-- Mnemonic and operand determine the instruction. -/
theorem toInstr_of_operand {i : Instr} {v : Byte} (h : i.operand = some v) : i.op.toInstr v = i := by
  cases i <;> simp_all [Instr.operand, Instr.op, Op.toInstr]

theorem toInstr_of_no_operand {i : Instr} (v : Byte) (h : i.operand = none) : i.op.toInstr v = i := by
  cases i <;> simp_all [Instr.operand, Instr.op, Op.toInstr]

theorem encodeWith_length (t : OpcodeTable) (i : Instr) : (encodeWith t i).length = i.length := by
  cases i <;> rfl

/-- With the capacity of this hardware every instruction is well-formed (R53). -/
theorem Instr.wf_default (i : Instr) : i.wf Config.defaultCapacity = true := by
  cases i <;> first | rfl | exact decide_eq_true (BitVec.isLt _)

end Sys2Proof
end

