-- ==== Sys2Proof/Laws/State.lean ====
section
/-! SUPPORT. What each update of the state does to each field: one lemma per field per update, true by `rfl`, so
that no later proof unfolds a record update. -/
namespace Sys2Proof.Machine

variable (s : State)

/-! ### setIe -/

@[simp] theorem setIe_a (v : Bool) : (s.setIe v).a = s.a := rfl
@[simp] theorem setIe_b (v : Bool) : (s.setIe v).b = s.b := rfl
@[simp] theorem setIe_ir (v : Bool) : (s.setIe v).ir = s.ir := rfl
@[simp] theorem setIe_mar (v : Bool) : (s.setIe v).mar = s.mar := rfl
@[simp] theorem setIe_mdr (v : Bool) : (s.setIe v).mdr = s.mdr := rfl
@[simp] theorem setIe_pc (v : Bool) : (s.setIe v).pc = s.pc := rfl
@[simp] theorem setIe_sp (v : Bool) : (s.setIe v).sp = s.sp := rfl
@[simp] theorem setIe_ie (v : Bool) : (s.setIe v).ie = v := rfl
@[simp] theorem setIe_halted (v : Bool) : (s.setIe v).halted = s.halted := rfl
@[simp] theorem setIe_iq (v : Bool) : (s.setIe v).iq = s.iq := rfl
@[simp] theorem setIe_mem (v : Bool) : (s.setIe v).mem = s.mem := rfl
@[simp] theorem setIe_draws (v : Bool) : (s.setIe v).draws = s.draws := rfl

/-! ### setPc -/

@[simp] theorem setPc_a (v : PcWord) : (s.setPc v).a = s.a := rfl
@[simp] theorem setPc_b (v : PcWord) : (s.setPc v).b = s.b := rfl
@[simp] theorem setPc_ir (v : PcWord) : (s.setPc v).ir = s.ir := rfl
@[simp] theorem setPc_mar (v : PcWord) : (s.setPc v).mar = s.mar := rfl
@[simp] theorem setPc_mdr (v : PcWord) : (s.setPc v).mdr = s.mdr := rfl
@[simp] theorem setPc_pc (v : PcWord) : (s.setPc v).pc = v := rfl
@[simp] theorem setPc_sp (v : PcWord) : (s.setPc v).sp = s.sp := rfl
@[simp] theorem setPc_ie (v : PcWord) : (s.setPc v).ie = s.ie := rfl
@[simp] theorem setPc_halted (v : PcWord) : (s.setPc v).halted = s.halted := rfl
@[simp] theorem setPc_iq (v : PcWord) : (s.setPc v).iq = s.iq := rfl
@[simp] theorem setPc_mem (v : PcWord) : (s.setPc v).mem = s.mem := rfl
@[simp] theorem setPc_draws (v : PcWord) : (s.setPc v).draws = s.draws := rfl

/-! ### setSp -/

@[simp] theorem setSp_a (v : Byte) : (s.setSp v).a = s.a := rfl
@[simp] theorem setSp_b (v : Byte) : (s.setSp v).b = s.b := rfl
@[simp] theorem setSp_ir (v : Byte) : (s.setSp v).ir = s.ir := rfl
@[simp] theorem setSp_mar (v : Byte) : (s.setSp v).mar = s.mar := rfl
@[simp] theorem setSp_mdr (v : Byte) : (s.setSp v).mdr = s.mdr := rfl
@[simp] theorem setSp_pc (v : Byte) : (s.setSp v).pc = s.pc := rfl
@[simp] theorem setSp_sp (v : Byte) : (s.setSp v).sp = v := rfl
@[simp] theorem setSp_ie (v : Byte) : (s.setSp v).ie = s.ie := rfl
@[simp] theorem setSp_halted (v : Byte) : (s.setSp v).halted = s.halted := rfl
@[simp] theorem setSp_iq (v : Byte) : (s.setSp v).iq = s.iq := rfl
@[simp] theorem setSp_mem (v : Byte) : (s.setSp v).mem = s.mem := rfl
@[simp] theorem setSp_draws (v : Byte) : (s.setSp v).draws = s.draws := rfl

/-! ### setHalted -/

@[simp] theorem setHalted_a (v : Bool) : (s.setHalted v).a = s.a := rfl
@[simp] theorem setHalted_b (v : Bool) : (s.setHalted v).b = s.b := rfl
@[simp] theorem setHalted_ir (v : Bool) : (s.setHalted v).ir = s.ir := rfl
@[simp] theorem setHalted_mar (v : Bool) : (s.setHalted v).mar = s.mar := rfl
@[simp] theorem setHalted_mdr (v : Bool) : (s.setHalted v).mdr = s.mdr := rfl
@[simp] theorem setHalted_pc (v : Bool) : (s.setHalted v).pc = s.pc := rfl
@[simp] theorem setHalted_sp (v : Bool) : (s.setHalted v).sp = s.sp := rfl
@[simp] theorem setHalted_ie (v : Bool) : (s.setHalted v).ie = s.ie := rfl
@[simp] theorem setHalted_halted (v : Bool) : (s.setHalted v).halted = v := rfl
@[simp] theorem setHalted_iq (v : Bool) : (s.setHalted v).iq = s.iq := rfl
@[simp] theorem setHalted_mem (v : Bool) : (s.setHalted v).mem = s.mem := rfl
@[simp] theorem setHalted_draws (v : Bool) : (s.setHalted v).draws = s.draws := rfl

/-! ### setIq -/

@[simp] theorem setIq_a (q : List Byte) : (s.setIq q).a = s.a := rfl
@[simp] theorem setIq_b (q : List Byte) : (s.setIq q).b = s.b := rfl
@[simp] theorem setIq_ir (q : List Byte) : (s.setIq q).ir = s.ir := rfl
@[simp] theorem setIq_mar (q : List Byte) : (s.setIq q).mar = s.mar := rfl
@[simp] theorem setIq_mdr (q : List Byte) : (s.setIq q).mdr = s.mdr := rfl
@[simp] theorem setIq_pc (q : List Byte) : (s.setIq q).pc = s.pc := rfl
@[simp] theorem setIq_sp (q : List Byte) : (s.setIq q).sp = s.sp := rfl
@[simp] theorem setIq_ie (q : List Byte) : (s.setIq q).ie = s.ie := rfl
@[simp] theorem setIq_halted (q : List Byte) : (s.setIq q).halted = s.halted := rfl
@[simp] theorem setIq_iq (q : List Byte) : (s.setIq q).iq = q := rfl
@[simp] theorem setIq_mem (q : List Byte) : (s.setIq q).mem = s.mem := rfl
@[simp] theorem setIq_draws (q : List Byte) : (s.setIq q).draws = s.draws := rfl

/-! ### setMem -/

@[simp] theorem setMem_a (m : Memory) : (s.setMem m).a = s.a := rfl
@[simp] theorem setMem_b (m : Memory) : (s.setMem m).b = s.b := rfl
@[simp] theorem setMem_ir (m : Memory) : (s.setMem m).ir = s.ir := rfl
@[simp] theorem setMem_mar (m : Memory) : (s.setMem m).mar = s.mar := rfl
@[simp] theorem setMem_mdr (m : Memory) : (s.setMem m).mdr = s.mdr := rfl
@[simp] theorem setMem_pc (m : Memory) : (s.setMem m).pc = s.pc := rfl
@[simp] theorem setMem_sp (m : Memory) : (s.setMem m).sp = s.sp := rfl
@[simp] theorem setMem_ie (m : Memory) : (s.setMem m).ie = s.ie := rfl
@[simp] theorem setMem_halted (m : Memory) : (s.setMem m).halted = s.halted := rfl
@[simp] theorem setMem_iq (m : Memory) : (s.setMem m).iq = s.iq := rfl
@[simp] theorem setMem_mem (m : Memory) : (s.setMem m).mem = m := rfl
@[simp] theorem setMem_draws (m : Memory) : (s.setMem m).draws = s.draws := rfl

/-! ### latchFetch -/

@[simp] theorem latchFetch_a (p b : Byte) : (s.latchFetch p b).a = s.a := rfl
@[simp] theorem latchFetch_b (p b : Byte) : (s.latchFetch p b).b = s.b := rfl
@[simp] theorem latchFetch_ir (p b : Byte) : (s.latchFetch p b).ir = b := rfl
@[simp] theorem latchFetch_mar (p b : Byte) : (s.latchFetch p b).mar = p := rfl
@[simp] theorem latchFetch_mdr (p b : Byte) : (s.latchFetch p b).mdr = s.mdr := rfl
@[simp] theorem latchFetch_pc (p b : Byte) : (s.latchFetch p b).pc = s.pc := rfl
@[simp] theorem latchFetch_sp (p b : Byte) : (s.latchFetch p b).sp = s.sp := rfl
@[simp] theorem latchFetch_ie (p b : Byte) : (s.latchFetch p b).ie = s.ie := rfl
@[simp] theorem latchFetch_halted (p b : Byte) : (s.latchFetch p b).halted = s.halted := rfl
@[simp] theorem latchFetch_iq (p b : Byte) : (s.latchFetch p b).iq = s.iq := rfl
@[simp] theorem latchFetch_mem (p b : Byte) : (s.latchFetch p b).mem = s.mem := rfl
@[simp] theorem latchFetch_draws (p b : Byte) : (s.latchFetch p b).draws = s.draws := rfl

/-! ### drawMdr -/

@[simp] theorem drawMdr_a : (s.drawMdr).a = s.a := rfl
@[simp] theorem drawMdr_b : (s.drawMdr).b = s.b := rfl
@[simp] theorem drawMdr_ir : (s.drawMdr).ir = s.ir := rfl
@[simp] theorem drawMdr_mar : (s.drawMdr).mar = s.mar := rfl
@[simp] theorem drawMdr_mdr : (s.drawMdr).mdr = Config.mdrDraw s.draws := rfl
@[simp] theorem drawMdr_pc : (s.drawMdr).pc = s.pc := rfl
@[simp] theorem drawMdr_sp : (s.drawMdr).sp = s.sp := rfl
@[simp] theorem drawMdr_ie : (s.drawMdr).ie = s.ie := rfl
@[simp] theorem drawMdr_halted : (s.drawMdr).halted = s.halted := rfl
@[simp] theorem drawMdr_iq : (s.drawMdr).iq = s.iq := rfl
@[simp] theorem drawMdr_mem : (s.drawMdr).mem = s.mem := rfl
@[simp] theorem drawMdr_draws : (s.drawMdr).draws = s.draws + 1 := rfl

/-! ### store -/

@[simp] theorem store_a (p : Nat) (v : Byte) : (s.store p v).a = s.a := rfl
@[simp] theorem store_b (p : Nat) (v : Byte) : (s.store p v).b = s.b := rfl
@[simp] theorem store_ir (p : Nat) (v : Byte) : (s.store p v).ir = s.ir := rfl
@[simp] theorem store_mar (p : Nat) (v : Byte) : (s.store p v).mar = s.mar := rfl
@[simp] theorem store_mdr (p : Nat) (v : Byte) : (s.store p v).mdr = s.mdr := rfl
@[simp] theorem store_pc (p : Nat) (v : Byte) : (s.store p v).pc = s.pc := rfl
@[simp] theorem store_sp (p : Nat) (v : Byte) : (s.store p v).sp = s.sp := rfl
@[simp] theorem store_ie (p : Nat) (v : Byte) : (s.store p v).ie = s.ie := rfl
@[simp] theorem store_halted (p : Nat) (v : Byte) : (s.store p v).halted = s.halted := rfl
@[simp] theorem store_iq (p : Nat) (v : Byte) : (s.store p v).iq = s.iq := rfl
@[simp] theorem store_mem (p : Nat) (v : Byte) : (s.store p v).mem = s.mem.write p v := rfl
@[simp] theorem store_draws (p : Nat) (v : Byte) : (s.store p v).draws = s.draws := rfl

/-! ### setReg and getReg -/

@[simp] theorem getReg_A : s.getReg .A = s.a := rfl
@[simp] theorem getReg_B : s.getReg .B = s.b := rfl
@[simp] theorem setReg_A_a (v : Byte) : (s.setReg .A v).a = v := rfl
@[simp] theorem setReg_A_b (v : Byte) : (s.setReg .A v).b = s.b := rfl
@[simp] theorem setReg_B_a (v : Byte) : (s.setReg .B v).a = s.a := rfl
@[simp] theorem setReg_B_b (v : Byte) : (s.setReg .B v).b = v := rfl
@[simp] theorem setReg_ir (r : Reg) (v : Byte) : (s.setReg r v).ir = s.ir := by cases r <;> rfl
@[simp] theorem setReg_mar (r : Reg) (v : Byte) : (s.setReg r v).mar = s.mar := by cases r <;> rfl
@[simp] theorem setReg_mdr (r : Reg) (v : Byte) : (s.setReg r v).mdr = s.mdr := by cases r <;> rfl
@[simp] theorem setReg_pc (r : Reg) (v : Byte) : (s.setReg r v).pc = s.pc := by cases r <;> rfl
@[simp] theorem setReg_sp (r : Reg) (v : Byte) : (s.setReg r v).sp = s.sp := by cases r <;> rfl
@[simp] theorem setReg_ie (r : Reg) (v : Byte) : (s.setReg r v).ie = s.ie := by cases r <;> rfl
@[simp] theorem setReg_halted (r : Reg) (v : Byte) : (s.setReg r v).halted = s.halted := by cases r <;> rfl
@[simp] theorem setReg_iq (r : Reg) (v : Byte) : (s.setReg r v).iq = s.iq := by cases r <;> rfl
@[simp] theorem setReg_mem (r : Reg) (v : Byte) : (s.setReg r v).mem = s.mem := by cases r <;> rfl
@[simp] theorem setReg_draws (r : Reg) (v : Byte) : (s.setReg r v).draws = s.draws := by cases r <;> rfl

/-- A register reads back what was last written to it. -/
theorem getReg_setReg_same (r : Reg) (v : Byte) : (s.setReg r v).getReg r = v := by cases r <;> rfl

/-- Writing one register leaves the other alone (R12). -/
theorem getReg_setReg_other (r q : Reg) (v : Byte) (h : q ≠ r) :
    (s.setReg r v).getReg q = s.getReg q := by
  cases r <;> cases q <;> first | rfl | exact absurd rfl h

/-- Two states with the same fields are the same state. -/
theorem State.eq_of_fields {s t : State} (ha : s.a = t.a) (hb : s.b = t.b) (hir : s.ir = t.ir)
    (hmar : s.mar = t.mar) (hmdr : s.mdr = t.mdr) (hpc : s.pc = t.pc) (hsp : s.sp = t.sp) (hie : s.ie = t.ie)
    (hh : s.halted = t.halted) (hiq : s.iq = t.iq) (hm : s.mem = t.mem) (hd : s.draws = t.draws) : s = t := by
  cases s; cases t; simp_all

end Sys2Proof.Machine
end

