-- ==== Sys2Proof/Laws/Memory.lean ====
section
/-! SUPPORT. The laws of memory (spec/20_memory.md R31 to R33): read after write, what a write leaves alone, and
that every operation keeps the canonical form. -/
namespace Sys2Proof.Machine

/-! ### Listed cells -/

theorem lookupCell_insertCell_same (a : Nat) (v : Byte) (l : List Host.Cell) :
    lookupCell a (insertCell a v l) = some v := by
  induction l with
  | nil => simp [insertCell, lookupCell]
  | cons c rest ih =>
    simp only [insertCell]
    split
    · simp [lookupCell]
    · split
      · simp [lookupCell]
      · have : c.1 ≠ a := fun h => by omega
        simp [lookupCell, this, ih]

theorem lookupCell_insertCell_other (a p : Nat) (v : Byte) (l : List Host.Cell) (h : a ≠ p) :
    lookupCell a (insertCell p v l) = lookupCell a l := by
  induction l with
  | nil => simp [insertCell, lookupCell, h.symm]
  | cons c rest ih =>
    simp only [insertCell]
    split
    · simp [lookupCell, h.symm]
    · split
      · rename_i hp
        have : c.1 ≠ a := fun e => h (by omega)
        simp [lookupCell, h.symm, this]
      · simp [lookupCell, ih]

/-- Every entry after an insertion is the new one or an old one. -/
theorem mem_insertCell {a : Nat} {v : Byte} {l : List Host.Cell} {c : Host.Cell}
    (h : c ∈ insertCell a v l) : c = (a, v) ∨ c ∈ l := by
  induction l with
  | nil => simpa [insertCell] using h
  | cons d rest ih =>
    simp only [insertCell] at h
    split at h
    · simpa using h
    · split at h
      · rcases List.mem_cons.1 h with h | h
        · exact .inl h
        · exact .inr (List.mem_cons_of_mem _ h)
      · rcases List.mem_cons.1 h with h | h
        · exact .inr (h ▸ List.mem_cons_self)
        · exact (ih h).imp id (List.mem_cons_of_mem _)

theorem insertCell_rising (a : Nat) (v : Byte) (l : List Host.Cell)
    (h : l.Pairwise (fun x y => x.1 < y.1)) : (insertCell a v l).Pairwise (fun x y => x.1 < y.1) := by
  induction l with
  | nil => simp [insertCell]
  | cons c rest ih =>
    obtain ⟨hc, hr⟩ := List.pairwise_cons.1 h
    simp only [insertCell]
    split
    · rename_i hlt
      refine List.pairwise_cons.2 ⟨fun d hd => ?_, h⟩
      rcases List.mem_cons.1 hd with rfl | hd
      · exact hlt
      · exact Nat.lt_trans hlt (hc d hd)
    · split
      · rename_i heq
        exact List.pairwise_cons.2 ⟨fun d hd => by simpa [heq] using hc d hd, hr⟩
      · refine List.pairwise_cons.2 ⟨fun d hd => ?_, ih hr⟩
        rcases mem_insertCell hd with rfl | hd
        · show c.1 < a
          omega
        · exact hc d hd

/-! ### Capacity -/

namespace Memory

variable (m : Memory)

theorem capacity_pos : 0 < m.capacity := Nat.succ_pos _

theorem capacity_le : m.capacity ≤ 256 := by
  have := m.last.isLt
  simp only [capacity]
  omega

theorem last_lt_capacity : m.last.toNat < m.capacity := Nat.lt_succ_self _

/-! ### Writing one byte (R32) -/

@[simp] theorem write_last (a : Nat) (v : Byte) : (m.write a v).last = m.last := by
  unfold write; split <;> rfl

@[simp] theorem write_capacity (a : Nat) (v : Byte) : (m.write a v).capacity = m.capacity := by
  simp [capacity]

/-- A read after a write to the same cell gives the byte written. -/
theorem cell_write_same {a : Nat} (v : Byte) (h : a < m.capacity) : (m.write a v).cell a = v := by
  simp [write, h, cell, lookupCell_insertCell_same]

/-- A write leaves every other cell alone. -/
theorem cell_write_other {a p : Nat} (v : Byte) (h : a ≠ p) : (m.write p v).cell a = m.cell a := by
  unfold write
  split
  · simp [cell, lookupCell_insertCell_other _ _ _ _ h]
  · rfl

/-- A write from the capacity on changes nothing (R32). -/
theorem write_out_of_range {a : Nat} (v : Byte) (h : m.capacity ≤ a) : m.write a v = m := by
  simp [write, Nat.not_lt.2 h]

/-- Writing keeps the canonical form. -/
theorem wf_write {m : Memory} (a : Nat) (v : Byte) (h : m.wf) : (m.write a v).wf := by
  unfold write
  split
  · refine ⟨insertCell_rising a v _ h.1, fun c hc => ?_⟩
    rcases mem_insertCell hc with rfl | hc
    · assumption
    · exact h.2 c hc
  · exact h

/-! ### Reading one byte (R31) -/

theorem read?_of_lt {a : Nat} (h : a < m.capacity) : m.read? a = some (m.cell a) := by simp [read?, h]

theorem read?_of_ge {a : Nat} (h : m.capacity ≤ a) : m.read? a = none := by simp [read?, Nat.not_lt.2 h]

theorem read?_eq_some {a : Nat} {v : Byte} : m.read? a = some v ↔ a < m.capacity ∧ m.cell a = v := by
  simp [read?]

theorem read?_eq_none {a : Nat} : m.read? a = none ↔ m.capacity ≤ a := by
  simp [read?]

theorem read?_write_same {a : Nat} (v : Byte) (h : a < m.capacity) : (m.write a v).read? a = some v := by
  simp [read?_of_lt, h, cell_write_same]

theorem read?_write_other {a p : Nat} (v : Byte) (h : a ≠ p) : (m.write p v).read? a = m.read? a := by
  simp [read?, cell_write_other m v h]

/-- A write, read back at every address at once. -/
theorem read?_write (a p : Nat) (v : Byte) :
    (m.write a v).read? p = if p = a ∧ p < m.capacity then some v else m.read? p := by
  split
  · rename_i h
    obtain ⟨rfl, h⟩ := h
    exact m.read?_write_same v h
  · rename_i h
    by_cases e : p = a
    · subst e
      rw [m.write_out_of_range v (by omega)]
    · exact m.read?_write_other v e

/-! ### Bulk load (R33) -/

@[simp] theorem loadImage_last (base : Nat) (bytes : List Byte) : (m.loadImage base bytes).last = m.last := by
  induction bytes generalizing m base with
  | nil => rfl
  | cons v rest ih => simp [loadImage, ih]

@[simp] theorem loadImage_capacity (base : Nat) (bytes : List Byte) :
    (m.loadImage base bytes).capacity = m.capacity := by
  simp [capacity]

/-- Loading keeps the canonical form. -/
theorem wf_loadImage {m : Memory} (base : Nat) (bytes : List Byte) (h : m.wf) : (m.loadImage base bytes).wf := by
  induction bytes generalizing m base with
  | nil => exact h
  | cons v rest ih => exact ih (base + 1) (wf_write base v h)

/-- Below its base an image changes nothing. -/
theorem cell_loadImage_below {a base : Nat} (bytes : List Byte) (h : a < base) :
    (m.loadImage base bytes).cell a = m.cell a := by
  induction bytes generalizing m base with
  | nil => rfl
  | cons v rest ih =>
    rw [loadImage, ih (m.write base v) (by omega), cell_write_other m v (by omega)]

end Memory

/-- The memory of the reset state is in canonical form, whatever its capacity. -/
theorem resetOf_mem_wf (last : Byte) (n : Nat) : (State.resetOf last n).mem.wf :=
  ⟨List.Pairwise.nil, fun _ h => by cases h⟩

end Sys2Proof.Machine
end

