-- ==== Sys2Proof/Laws/Ops.lean ====
section
/-! SUPPORT. For each shared operation one lemma that says everything it can do: the stack primitives (spec/20_memory.md
R40 to R42), interrupt entry and return (spec/60_exceptions.md R106, R109), the operand read and the addressing modes. -/
namespace Sys2Proof.Machine

/-! ### Widths -/

@[simp] theorem zext9_toNat (v : Byte) : (zext9 v).toNat = v.toNat := by
  have := v.isLt
  simp [zext9]
  omega

theorem lowByte_toNat (p : PcWord) : (lowByte p).toNat = p.toNat % 256 := by simp [lowByte]

@[simp] theorem lowByte_zext9 (v : Byte) : lowByte (zext9 v) = v := by
  apply BitVec.eq_of_toNat_eq
  have := v.isLt
  rw [lowByte_toNat, zext9_toNat]
  omega

/-- A PC value that is a byte is the zero extension of its low byte. -/
theorem zext9_lowByte (p : PcWord) (h : p.toNat ≤ 255) : zext9 (lowByte p) = p := by
  apply BitVec.eq_of_toNat_eq
  rw [zext9_toNat, lowByte_toNat]
  omega

/-- The increment of PC is exact below the top of memory (R14, R83). -/
theorem pc_succ_toNat (p : PcWord) (h : p.toNat ≤ 256) : (p + 1#9).toNat = p.toNat + 1 := by
  simp [BitVec.toNat_add]
  omega

/-- ADD is addition modulo 256 (R82). -/
theorem add8_eq (x y : Byte) : add8 x y = x + y := by
  apply BitVec.eq_of_toNat_eq
  have hx := x.isLt
  have hy := y.isLt
  simp [add8, lowByte_toNat, BitVec.toNat_add]

/-! ### The stack pointer -/

theorem pushedSp_toNat (sp : Byte) : (pushedSp sp).toNat = sp.toNat - 1 := by
  unfold pushedSp
  split
  · rename_i h
    simp [h]
  · rename_i h
    have h0 : sp.toNat ≠ 0 := fun e => h (BitVec.eq_of_toNat_eq e)
    have := sp.isLt
    rw [BitVec.toNat_sub]
    simp
    omega

theorem poppedSp_toNat (last sp : Byte) : (poppedSp last sp).toNat = min (sp.toNat + 1) last.toNat := by
  have hl := last.isLt
  have hs := sp.isLt
  unfold poppedSp
  split
  · rename_i h
    have h' : sp.toNat < last.toNat := h
    rw [BitVec.toNat_add]
    simp
    omega
  · rename_i h
    have h' : ¬ sp.toNat < last.toNat := h
    omega

/-- The SP a pop leaves, by the capacity (R41). -/
theorem poppedSp_toNat_capacity (m : Memory) (sp : Byte) :
    (poppedSp m.last sp).toNat = min (sp.toNat + 1) (m.capacity - 1) := by
  rw [poppedSp_toNat]
  rfl

/-- The cell a pop reads exists, in every state (R41). -/
theorem poppedSp_lt_capacity (m : Memory) (sp : Byte) : (poppedSp m.last sp).toNat < m.capacity := by
  rw [poppedSp_toNat, Memory.capacity]
  omega

/-- Away from the bounds a pop undoes the move of a push (R42). -/
theorem poppedSp_pushedSp (last sp : Byte) (h0 : 1 ≤ sp.toNat) (h : sp.toNat ≤ last.toNat) :
    poppedSp last (pushedSp sp) = sp := by
  apply BitVec.eq_of_toNat_eq
  rw [poppedSp_toNat, pushedSp_toNat]
  omega

/-! ### push (R40) -/

section Push

variable (v : Byte) (s : State)

@[simp] theorem push_a : (push v s).a = s.a := rfl
@[simp] theorem push_b : (push v s).b = s.b := rfl
@[simp] theorem push_ir : (push v s).ir = s.ir := rfl
@[simp] theorem push_mar : (push v s).mar = s.mar := rfl
@[simp] theorem push_mdr : (push v s).mdr = s.mdr := rfl
@[simp] theorem push_pc : (push v s).pc = s.pc := rfl
@[simp] theorem push_sp : (push v s).sp = pushedSp s.sp := rfl
@[simp] theorem push_ie : (push v s).ie = s.ie := rfl
@[simp] theorem push_halted : (push v s).halted = s.halted := rfl
@[simp] theorem push_iq : (push v s).iq = s.iq := rfl
@[simp] theorem push_mem : (push v s).mem = s.mem.write s.sp.toNat v := rfl
@[simp] theorem push_draws : (push v s).draws = s.draws := rfl

end Push

/-! ### pop (R41) -/

section Pop

variable (s : State)

@[simp] theorem popState_a : (popState s).a = s.a := rfl
@[simp] theorem popState_b : (popState s).b = s.b := rfl
@[simp] theorem popState_ir : (popState s).ir = s.ir := rfl
@[simp] theorem popState_mar : (popState s).mar = s.mar := rfl
@[simp] theorem popState_mdr : (popState s).mdr = s.mdr := rfl
@[simp] theorem popState_pc : (popState s).pc = s.pc := rfl
@[simp] theorem popState_sp : (popState s).sp = poppedSp s.mem.last s.sp := rfl
@[simp] theorem popState_ie : (popState s).ie = s.ie := rfl
@[simp] theorem popState_halted : (popState s).halted = s.halted := rfl
@[simp] theorem popState_iq : (popState s).iq = s.iq := rfl
@[simp] theorem popState_mem : (popState s).mem = s.mem := rfl
@[simp] theorem popState_draws : (popState s).draws = s.draws := rfl

/-- What a pop returns is what `MemRead` gives at the new SP, so a pop never faults (R41). -/
theorem read?_popped : s.mem.read? (popState s).sp.toNat = some (popValue s) :=
  Memory.read?_of_lt _ (poppedSp_lt_capacity s.mem s.sp)

end Pop

/-- A pop right after a push, away from the bounds, returns the byte pushed. -/
theorem popValue_push (v : Byte) (s : State) (h0 : 1 ≤ s.sp.toNat) (h : s.sp.toNat ≤ s.mem.last.toNat) :
    popValue (push v s) = v := by
  have hc : s.sp.toNat < s.mem.capacity := by
    have := s.mem.last_lt_capacity
    omega
  simp only [popValue, push_mem, push_sp, Memory.write_last, poppedSp_pushedSp _ _ h0 h]
  exact s.mem.cell_write_same v hc

/-! ### Return from interrupt (R96) -/

section Return

variable (s : State)

@[simp] theorem returnFromInterrupt_a : (returnFromInterrupt s).a = s.a := rfl
@[simp] theorem returnFromInterrupt_b : (returnFromInterrupt s).b = s.b := rfl
@[simp] theorem returnFromInterrupt_ir : (returnFromInterrupt s).ir = s.ir := rfl
@[simp] theorem returnFromInterrupt_mar : (returnFromInterrupt s).mar = s.mar := rfl
@[simp] theorem returnFromInterrupt_mdr : (returnFromInterrupt s).mdr = s.mdr := rfl
@[simp] theorem returnFromInterrupt_pc : (returnFromInterrupt s).pc = zext9 (popValue s) := rfl
@[simp] theorem returnFromInterrupt_sp : (returnFromInterrupt s).sp = poppedSp s.mem.last s.sp := rfl
@[simp] theorem returnFromInterrupt_ie : (returnFromInterrupt s).ie = true := rfl
@[simp] theorem returnFromInterrupt_halted : (returnFromInterrupt s).halted = s.halted := rfl
@[simp] theorem returnFromInterrupt_iq : (returnFromInterrupt s).iq = s.iq := rfl
@[simp] theorem returnFromInterrupt_mem : (returnFromInterrupt s).mem = s.mem := rfl
@[simp] theorem returnFromInterrupt_draws : (returnFromInterrupt s).draws = s.draws := rfl

end Return

/-! ### Interrupt entry (R106) -/

section Save

variable (rest : List Byte) (s : State)

@[simp] theorem saveContext_a : (saveContext rest s).a = s.a := rfl
@[simp] theorem saveContext_b : (saveContext rest s).b = s.b := rfl
@[simp] theorem saveContext_ir : (saveContext rest s).ir = s.ir := rfl
@[simp] theorem saveContext_mar : (saveContext rest s).mar = s.mar := rfl
@[simp] theorem saveContext_mdr : (saveContext rest s).mdr = s.mdr := rfl
@[simp] theorem saveContext_pc : (saveContext rest s).pc = s.pc := rfl
@[simp] theorem saveContext_sp : (saveContext rest s).sp = pushedSp s.sp := rfl
@[simp] theorem saveContext_ie : (saveContext rest s).ie = false := rfl
@[simp] theorem saveContext_halted : (saveContext rest s).halted = s.halted := rfl
@[simp] theorem saveContext_iq : (saveContext rest s).iq = rest := rfl
@[simp] theorem saveContext_mem : (saveContext rest s).mem = s.mem.write s.sp.toNat (lowByte s.pc) := rfl
@[simp] theorem saveContext_draws : (saveContext rest s).draws = s.draws := rfl

end Save

/-- The vector service reads: the cell of the code, after the push (R106). -/
def vectorRead (c : Byte) (s : State) : Byte := (s.mem.write s.sp.toNat (lowByte s.pc)).cell c.toNat

/-- When interrupt entry completes, and with what. -/
theorem enterInterrupt_of_ok {c : Byte} {rest : List Byte} {s : State} (hpc : s.pc.toNat ≤ 255)
    (hc : c.toNat < s.mem.capacity) :
    enterInterrupt c rest s = .next ((saveContext rest s).setPc (zext9 (vectorRead c s))) := by
  simp [enterInterrupt, Nat.not_lt.2 hpc, vectorBase, vectorRead, Memory.read?_of_lt, hc]

theorem enterInterrupt_of_pc {c : Byte} {rest : List Byte} {s : State} (hpc : 255 < s.pc.toNat) :
    enterInterrupt c rest s = .fault (.pcNotByte s.pc) := by
  simp [enterInterrupt, hpc]

theorem enterInterrupt_of_vector {c : Byte} {rest : List Byte} {s : State} (hpc : s.pc.toNat ≤ 255)
    (hc : s.mem.capacity ≤ c.toNat) : enterInterrupt c rest s = .fault (.vectorOutOfRange c) := by
  simp [enterInterrupt, Nat.not_lt.2 hpc, vectorBase, Memory.read?_of_ge, hc]

/-- The three things interrupt entry can do. -/
theorem enterInterrupt_cases (c : Byte) (rest : List Byte) (s : State) :
    (255 < s.pc.toNat ∧ enterInterrupt c rest s = .fault (.pcNotByte s.pc)) ∨
    (s.pc.toNat ≤ 255 ∧ s.mem.capacity ≤ c.toNat ∧ enterInterrupt c rest s = .fault (.vectorOutOfRange c)) ∨
    (s.pc.toNat ≤ 255 ∧ c.toNat < s.mem.capacity ∧
      enterInterrupt c rest s = .next ((saveContext rest s).setPc (zext9 (vectorRead c s)))) := by
  by_cases hpc : 255 < s.pc.toNat
  · exact .inl ⟨hpc, enterInterrupt_of_pc hpc⟩
  · have hpc : s.pc.toNat ≤ 255 := by omega
    by_cases hc : c.toNat < s.mem.capacity
    · exact .inr (.inr ⟨hpc, hc, enterInterrupt_of_ok hpc hc⟩)
    · exact .inr (.inl ⟨hpc, by omega, enterInterrupt_of_vector hpc (by omega)⟩)

/-! ### Operand read and addressing modes -/

theorem readOperand_of_lt {s : State} (h : s.pc.toNat < s.mem.capacity) :
    readOperand s = .next (s.mem.cell s.pc.toNat, s.setPc (s.pc + 1#9)) := by
  simp [readOperand, Memory.read?_of_lt _ h]

theorem readOperand_of_ge {s : State} (h : s.mem.capacity ≤ s.pc.toNat) :
    readOperand s = .fault (.operandOutOfRange s.pc) := by
  simp [readOperand, Memory.read?_of_ge _ h]

theorem loadAbsolute_of_lt {r : Reg} {addr : Byte} {s : State} (h : addr.toNat < s.mem.capacity) :
    loadAbsolute r addr s = .next (s.setReg r (s.mem.cell addr.toNat)) := by
  simp [loadAbsolute, Memory.read?_of_lt _ h]

theorem loadAbsolute_of_ge {r : Reg} {addr : Byte} {s : State} (h : s.mem.capacity ≤ addr.toNat) :
    loadAbsolute r addr s = .fault (.loadOutOfRange addr) := by
  simp [loadAbsolute, Memory.read?_of_ge _ h]

/-- What an absolute load can do. -/
theorem loadAbsolute_next {r : Reg} {addr : Byte} {s t : State} (h : loadAbsolute r addr s = .next t) :
    addr.toNat < s.mem.capacity ∧ t = s.setReg r (s.mem.cell addr.toNat) := by
  by_cases hlt : addr.toNat < s.mem.capacity
  · rw [loadAbsolute_of_lt hlt] at h
    cases h
    exact ⟨hlt, rfl⟩
  · rw [loadAbsolute_of_ge (by omega)] at h
    cases h

end Sys2Proof.Machine
end

