-- ==== Sys2Proof/Laws/Cycle.lean ====
section
/-! SUPPORT. Everything an instruction and a TICK can do, said once (spec/40_execution_cycle.md R65 to R71); later
proofs take a TICK apart by these lemmas. -/
namespace Sys2Proof.Machine

/-! ### exec, arm by arm -/

section Exec

variable (s : State)

@[simp] theorem exec_loadAVal (v : Byte) : exec (.loadAVal v) s = .next (s.setReg .A v) := rfl
@[simp] theorem exec_loadBVal (v : Byte) : exec (.loadBVal v) s = .next (s.setReg .B v) := rfl
@[simp] theorem exec_loadAMem (addr : Byte) : exec (.loadAMem addr) s = loadAbsolute .A addr s := rfl
@[simp] theorem exec_loadBMem (addr : Byte) : exec (.loadBMem addr) s = loadAbsolute .B addr s := rfl
@[simp] theorem exec_storeA (addr : Byte) : exec (.storeA addr) s = .next (s.store addr.toNat s.a) := rfl
@[simp] theorem exec_storeB (addr : Byte) : exec (.storeB addr) s = .next (s.store addr.toNat s.b) := rfl
@[simp] theorem exec_add : exec .add s = .next (s.setReg .A (s.a + s.b)) := by
  rw [← add8_eq]; rfl
@[simp] theorem exec_jmp (addr : Byte) : exec (.jmp addr) s = .next (s.setPc (zext9 addr)) := rfl
@[simp] theorem exec_enableInterrupts : exec .enableInterrupts s = .next (s.setIe true) := rfl
@[simp] theorem exec_iret : exec .iret s = .next (returnFromInterrupt s) := rfl
@[simp] theorem exec_pushA : exec .pushA s = .next (push s.a s) := rfl
@[simp] theorem exec_pushB : exec .pushB s = .next (push s.b s) := rfl
@[simp] theorem exec_popA : exec .popA s = .next ((popState s).setReg .A (popValue s)) := rfl
@[simp] theorem exec_popB : exec .popB s = .next ((popState s).setReg .B (popValue s)) := rfl
@[simp] theorem exec_halt : exec .halt s = .next (s.setHalted true) := rfl
@[simp] theorem exec_noop : exec .noop s = .next s := rfl

end Exec

/-- No instruction is ever refused. -/
theorem exec_not_refused (i : Instr) (s : State) (r : Refusal) : exec i s ≠ .refused r := by
  cases i <;> simp [loadAbsolute] <;> split <;> simp

/-! ### Fetch (R68) -/

theorem fetchOpcode_of_lt {s : State} (h : s.pc.toNat < s.mem.capacity) :
    fetchOpcode s = .next (s.mem.cell s.pc.toNat,
      (s.latchFetch (lowByte s.pc) (s.mem.cell s.pc.toNat)).setPc (s.pc + 1#9)) := by
  simp [fetchOpcode, Memory.read?_of_lt _ h]

theorem fetchOpcode_of_ge {s : State} (h : s.mem.capacity ≤ s.pc.toNat) :
    fetchOpcode s = .fault (.fetchOutOfRange s.pc) := by
  simp [fetchOpcode, Memory.read?_of_ge _ h]

/-! ### Decode-and-execute (R69 to R71) -/

theorem executeOpcode_unrecognised {t : OpcodeTable} {b : Byte} {s : State} (h : decodeOpcode t b = none) :
    executeOpcode t b s = .next s := by
  simp [executeOpcode, h]

theorem executeOpcode_single {t : OpcodeTable} {b : Byte} {s : State} {o : Op} (h : decodeOpcode t b = some o)
    (ho : o.hasOperand = false) : executeOpcode t b s = exec (o.toInstr 0#8) s := by
  simp [executeOpcode, h, ho]

theorem executeOpcode_double {t : OpcodeTable} {b : Byte} {s : State} {o : Op} (h : decodeOpcode t b = some o)
    (ho : o.hasOperand = true) (hp : s.pc.toNat < s.mem.capacity) :
    executeOpcode t b s = exec (o.toInstr (s.mem.cell s.pc.toNat)) (s.setPc (s.pc + 1#9)) := by
  simp [executeOpcode, h, ho, readOperand_of_lt hp]

theorem executeOpcode_operand_missing {t : OpcodeTable} {b : Byte} {s : State} {o : Op}
    (h : decodeOpcode t b = some o) (ho : o.hasOperand = true) (hp : s.mem.capacity ≤ s.pc.toNat) :
    executeOpcode t b s = .fault (.operandOutOfRange s.pc) := by
  simp [executeOpcode, h, ho, readOperand_of_ge hp]

/-! ### The TICK (R65) -/

/-- The state a TICK that fetches byte `b` has reached before it executes, PC at `pc`. -/
def fetched (s : State) (b : Byte) (pc : PcWord) : State :=
  (s.drawMdr.latchFetch (lowByte s.pc) b).setPc pc

section Fetched

variable (s : State) (x : Byte) (p : PcWord)

@[simp] theorem fetched_a : (fetched s x p).a = s.a := rfl
@[simp] theorem fetched_b : (fetched s x p).b = s.b := rfl
@[simp] theorem fetched_ir : (fetched s x p).ir = x := rfl
@[simp] theorem fetched_mar : (fetched s x p).mar = lowByte s.pc := rfl
@[simp] theorem fetched_mdr : (fetched s x p).mdr = Config.mdrDraw s.draws := rfl
@[simp] theorem fetched_pc : (fetched s x p).pc = p := rfl
@[simp] theorem fetched_sp : (fetched s x p).sp = s.sp := rfl
@[simp] theorem fetched_ie : (fetched s x p).ie = s.ie := rfl
@[simp] theorem fetched_halted : (fetched s x p).halted = s.halted := rfl
@[simp] theorem fetched_iq : (fetched s x p).iq = s.iq := rfl
@[simp] theorem fetched_mem : (fetched s x p).mem = s.mem := rfl
@[simp] theorem fetched_draws : (fetched s x p).draws = s.draws + 1 := rfl

end Fetched

theorem serviceDue_eq_some {s : State} {c : Byte} {rest : List Byte} :
    serviceDue s = some (c, rest) ↔ s.ie = true ∧ s.iq = c :: rest := by
  unfold serviceDue
  cases s.ie <;> cases s.iq <;> simp

theorem serviceDue_eq_none {s : State} : serviceDue s = none ↔ s.ie = false ∨ s.iq = [] := by
  unfold serviceDue
  cases s.ie <;> cases s.iq <;> simp

theorem tickWith_halted {t : OpcodeTable} {s : State} (h : s.halted = true) : tickWith t s = .next s := by
  simp [tickWith, h]

theorem tickWith_service {t : OpcodeTable} {s : State} {c : Byte} {rest : List Byte} (hh : s.halted = false)
    (hie : s.ie = true) (hiq : s.iq = c :: rest) : tickWith t s = enterInterrupt c rest s.drawMdr := by
  simp [tickWith, hh, serviceDue_eq_some.2 ⟨hie, hiq⟩]

theorem tickWith_fetch {t : OpcodeTable} {s : State} (hh : s.halted = false) (hs : s.ie = false ∨ s.iq = []) :
    tickWith t s = fetchExecute t s.drawMdr := by
  simp [tickWith, hh, serviceDue_eq_none.2 hs]

/-- What the fetch-execute alternative does, in terms of the cell at PC. -/
theorem fetchExecute_cases (t : OpcodeTable) (s : State) :
    (s.mem.capacity ≤ s.pc.toNat ∧ fetchExecute t s.drawMdr = .fault (.fetchOutOfRange s.pc)) ∨
    (s.pc.toNat < s.mem.capacity ∧
      fetchExecute t s.drawMdr =
        executeOpcode t (s.mem.cell s.pc.toNat) (fetched s (s.mem.cell s.pc.toNat) (s.pc + 1#9))) := by
  by_cases h : s.pc.toNat < s.mem.capacity
  · exact .inr ⟨h, by simp [fetchExecute, fetchOpcode_of_lt (s := s.drawMdr) h, fetched]⟩
  · exact .inl ⟨by omega, by
      simp [fetchExecute, fetchOpcode_of_ge (s := s.drawMdr) (show s.mem.capacity ≤ s.pc.toNat by omega)]⟩

/-- Everything a fetch-execute can end in: a fetch past the top, an unrecognised byte, a one-byte instruction, a
two-byte instruction without its operand byte, a two-byte instruction with it. -/
theorem tickWith_fetch_cases (t : OpcodeTable) {s : State} (hh : s.halted = false)
    (hs : s.ie = false ∨ s.iq = []) :
    (s.mem.capacity ≤ s.pc.toNat ∧ tickWith t s = .fault (.fetchOutOfRange s.pc)) ∨
    (s.pc.toNat < s.mem.capacity ∧
      ((decodeOpcode t (s.mem.cell s.pc.toNat) = none ∧
          tickWith t s = .next (fetched s (s.mem.cell s.pc.toNat) (s.pc + 1#9))) ∨
       (∃ o, decodeOpcode t (s.mem.cell s.pc.toNat) = some o ∧ o.hasOperand = false ∧
          tickWith t s = exec (o.toInstr 0#8) (fetched s (s.mem.cell s.pc.toNat) (s.pc + 1#9))) ∨
       (∃ o, decodeOpcode t (s.mem.cell s.pc.toNat) = some o ∧ o.hasOperand = true ∧
          s.pc.toNat + 1 = s.mem.capacity ∧ tickWith t s = .fault (.operandOutOfRange (s.pc + 1#9))) ∨
       (∃ o, decodeOpcode t (s.mem.cell s.pc.toNat) = some o ∧ o.hasOperand = true ∧
          s.pc.toNat + 1 < s.mem.capacity ∧
          tickWith t s = exec (o.toInstr (s.mem.cell (s.pc.toNat + 1)))
            (fetched s (s.mem.cell s.pc.toNat) (s.pc + 1#9 + 1#9))))) := by
  rw [tickWith_fetch hh hs]
  rcases fetchExecute_cases t s with h | ⟨hlt, h⟩
  · exact .inl h
  · refine .inr ⟨hlt, ?_⟩
    rw [h]
    have hcap := s.mem.capacity_le
    have hpc : (s.pc + 1#9).toNat = s.pc.toNat + 1 := pc_succ_toNat _ (by omega)
    cases hd : decodeOpcode t (s.mem.cell s.pc.toNat) with
    | none => exact .inl ⟨rfl, executeOpcode_unrecognised hd⟩
    | some o =>
      refine .inr ?_
      cases ho : o.hasOperand with
      | false => exact .inl ⟨o, rfl, ho, executeOpcode_single hd ho⟩
      | true =>
        refine .inr ?_
        by_cases hp : s.pc.toNat + 1 < s.mem.capacity
        · refine .inr ⟨o, rfl, ho, hp, ?_⟩
          rw [executeOpcode_double hd ho (by simpa [hpc] using hp)]
          simp only [fetched_pc, fetched_mem, hpc]
          rfl
        · refine .inl ⟨o, rfl, ho, by omega, ?_⟩
          rw [executeOpcode_operand_missing hd ho (by simp [hpc]; omega)]
          rfl

end Sys2Proof.Machine
end

