-- ==== Sys2Proof/Laws/Events.lean ====
section
/-! SUPPORT. What each of the other three events does to each field (spec/80_host_interface.md R146 to R148). -/
namespace Sys2Proof.Machine

section Load

variable (bytes : List Byte) (base : Byte) (s : State)

@[simp] theorem loadEvent_a : (loadEvent bytes base s).a = s.a := rfl
@[simp] theorem loadEvent_b : (loadEvent bytes base s).b = s.b := rfl
@[simp] theorem loadEvent_ir : (loadEvent bytes base s).ir = s.ir := rfl
@[simp] theorem loadEvent_mar : (loadEvent bytes base s).mar = s.mar := rfl
@[simp] theorem loadEvent_mdr : (loadEvent bytes base s).mdr = s.mdr := rfl
@[simp] theorem loadEvent_pc : (loadEvent bytes base s).pc = zext9 base := rfl
@[simp] theorem loadEvent_sp : (loadEvent bytes base s).sp = s.sp := rfl
@[simp] theorem loadEvent_ie : (loadEvent bytes base s).ie = s.ie := rfl
@[simp] theorem loadEvent_halted : (loadEvent bytes base s).halted = s.halted := rfl
@[simp] theorem loadEvent_iq : (loadEvent bytes base s).iq = s.iq := rfl
@[simp] theorem loadEvent_mem : (loadEvent bytes base s).mem = s.mem.loadImage base.toNat bytes := rfl
@[simp] theorem loadEvent_draws : (loadEvent bytes base s).draws = s.draws := rfl

end Load

/-- A request changes IQ only (R103). -/
theorem irqEvent_eq (c : Byte) (s : State) :
    irqEvent c s = s.setIq (if c ∈ s.iq then s.iq else s.iq ++ [c]) := by
  unfold irqEvent
  split <;> rfl

/-- RESET's two outcomes (R6, R146). -/
theorem resetEvent_of_admitted {c : Nat} (s : State) (h : 1 ≤ c ∧ c ≤ 256) :
    resetEvent c s = .next (State.resetOf (BitVec.ofNat 8 (c - 1)) s.draws) := by
  simp [resetEvent, capacityAdmitted, h]

theorem resetEvent_of_not_admitted {c : Nat} (s : State) (h : ¬ (1 ≤ c ∧ c ≤ 256)) :
    resetEvent c s = .refused (.capacityNotAdmitted c) := by
  have : capacityAdmitted c = false := by simpa [capacityAdmitted] using h
  simp [resetEvent, this]

/-- The capacity after RESET(C) is C. -/
theorem resetOf_capacity {c : Nat} (h : 1 ≤ c ∧ c ≤ 256) (n : Nat) :
    (State.resetOf (BitVec.ofNat 8 (c - 1)) n).mem.capacity = c := by
  simp [State.resetOf, Memory.capacity]
  omega

/-- A run of events is the run of its first part, then of the rest. -/
theorem runEvents_append (t : OpcodeTable) (es fs : List Event) {s u : State}
    (h : runEvents t es s = .next u) : runEvents t (es ++ fs) s = runEvents t fs u := by
  induction es generalizing s with
  | nil =>
    cases h
    rfl
  | cons e rest ih =>
    simp only [List.cons_append, runEvents] at h ⊢
    split at h
    · exact ih h
    · cases h
    · cases h

end Sys2Proof.Machine
end

