-- ==== Sys2Proof/Laws/PerInstr.lean ====
section
/-! SUPPORT. Statements made instruction by instruction. Family `EncodedLength`: an instruction's encoding with the
default opcode values has the length its format gives (spec/30_encoding.md R50), and its first byte is recognised as
its mnemonic. -/
namespace Sys2Proof.Laws.EncodedLength

def Statement (i : Instr) : Prop :=
  (encode i).length = i.length ∧ decodeOpcode defaultOpcodes ((encode i).headD 0#8) = some i.op

theorem loadAVal (v : Byte) : Statement (.loadAVal v) := ⟨rfl, rfl⟩
theorem loadBVal (v : Byte) : Statement (.loadBVal v) := ⟨rfl, rfl⟩
theorem loadAMem (addr : Byte) : Statement (.loadAMem addr) := ⟨rfl, rfl⟩
theorem loadBMem (addr : Byte) : Statement (.loadBMem addr) := ⟨rfl, rfl⟩
theorem storeA (addr : Byte) : Statement (.storeA addr) := ⟨rfl, rfl⟩
theorem storeB (addr : Byte) : Statement (.storeB addr) := ⟨rfl, rfl⟩
theorem add : Statement .add := ⟨rfl, rfl⟩
theorem jmp (addr : Byte) : Statement (.jmp addr) := ⟨rfl, rfl⟩
theorem enableInterrupts : Statement .enableInterrupts := ⟨rfl, rfl⟩
theorem iret : Statement .iret := ⟨rfl, rfl⟩
theorem pushA : Statement .pushA := ⟨rfl, rfl⟩
theorem pushB : Statement .pushB := ⟨rfl, rfl⟩
theorem popA : Statement .popA := ⟨rfl, rfl⟩
theorem popB : Statement .popB := ⟨rfl, rfl⟩
theorem halt : Statement .halt := ⟨rfl, rfl⟩
theorem noop : Statement .noop := ⟨rfl, rfl⟩

end Sys2Proof.Laws.EncodedLength
end

