-- ==== Sys2Proof/Laws/Surface.lean ====
section
/-! SUPPORT. The contents of memory as a list of bytes (spec/80_host_interface.md R151) and its cells. -/
namespace Sys2Proof.Machine

namespace Memory

variable (m : Memory)

@[simp] theorem bytes_length : m.bytes.length = m.capacity := by simp [bytes]

/-- The list of bytes holds, at each address, what `MemRead` gives there. -/
theorem bytes_getElem? (a : Nat) : m.bytes[a]? = m.read? a := by
  by_cases h : a < m.capacity
  · simp [bytes, read?, h]
  · simp [bytes, read?, h]

/-- From an address below the capacity on, the contents are its cell and then the rest. -/
theorem bytes_drop_of_lt {a : Nat} (h : a < m.capacity) : m.bytes.drop a = m.cell a :: m.bytes.drop (a + 1) := by
  rw [List.drop_eq_getElem_cons (by simpa using h)]
  simp [bytes]

theorem bytes_drop_of_ge {a : Nat} (h : m.capacity ≤ a) : m.bytes.drop a = [] :=
  List.drop_eq_nil_of_le (by simpa using h)

/-- Two memories with the same contents have the same capacity and the same cells. -/
theorem capacity_eq_of_bytes {m n : Memory} (h : m.bytes = n.bytes) : m.capacity = n.capacity := by
  simpa using congrArg List.length h

theorem read?_eq_of_bytes {m n : Memory} (h : m.bytes = n.bytes) (a : Nat) : m.read? a = n.read? a := by
  rw [← bytes_getElem?, ← bytes_getElem?, h]

end Memory

end Sys2Proof.Machine
end

