-- ==== Sys2Proof/Laws/Step.lean ====
section
/-! SUPPORT. The step, one lemma for each way a TICK with the default opcode values can go, in terms of the bytes at PC
(spec/40_execution_cycle.md R65 to R71). -/
namespace Sys2Proof.Machine

/-- With the default opcode values the unrecognised bytes are 0x00 and 0x11 to 0xFF (R55). -/
theorem decodeOpcode_default_none (b : Byte) :
    decodeOpcode defaultOpcodes b = none ↔ b = 0x00#8 ∨ 0x11#8 ≤ b := by
  revert b
  decide

theorem pc_add_two (p : PcWord) : p + 1#9 + 1#9 = p + 2#9 := by
  rw [BitVec.add_assoc]
  rfl

section Fetching

variable {s : State} {x v : Byte} {o : Op}

theorem step_fetchOutOfRange (hh : s.halted = false) (hs : s.ie = false ∨ s.iq = [])
    (h : s.mem.capacity ≤ s.pc.toNat) : step s = .fault (.fetchOutOfRange s.pc) := by
  rcases tickWith_fetch_cases defaultOpcodes hh hs with ⟨-, ht⟩ | ⟨h', -⟩
  · exact ht
  · omega

theorem step_unrecognised (hh : s.halted = false) (hs : s.ie = false ∨ s.iq = [])
    (hx : s.mem.read? s.pc.toNat = some x) (hd : decodeOpcode defaultOpcodes x = none) :
    step s = .next (fetched s x (s.pc + 1#9)) := by
  obtain ⟨h, rfl⟩ := (Memory.read?_eq_some _).1 hx
  rcases tickWith_fetch_cases defaultOpcodes hh hs with ⟨h', -⟩ | ⟨-, hc⟩
  · omega
  · rcases hc with ⟨-, ht⟩ | ⟨_, hd', -⟩ | ⟨_, hd', -⟩ | ⟨_, hd', -⟩
    · exact ht
    all_goals simp [hd] at hd'

theorem step_single (hh : s.halted = false) (hs : s.ie = false ∨ s.iq = [])
    (hx : s.mem.read? s.pc.toNat = some x) (hd : decodeOpcode defaultOpcodes x = some o)
    (ho : o.hasOperand = false) : step s = exec (o.toInstr 0#8) (fetched s x (s.pc + 1#9)) := by
  obtain ⟨h, rfl⟩ := (Memory.read?_eq_some _).1 hx
  rcases tickWith_fetch_cases defaultOpcodes hh hs with ⟨h', -⟩ | ⟨-, hc⟩
  · omega
  · rcases hc with ⟨hd', -⟩ | ⟨_, hd', -, ht⟩ | ⟨_, hd', ho', -⟩ | ⟨_, hd', ho', -⟩ <;> simp_all [step]

theorem step_double (hh : s.halted = false) (hs : s.ie = false ∨ s.iq = [])
    (hx : s.mem.read? s.pc.toNat = some x) (hv : s.mem.read? (s.pc.toNat + 1) = some v)
    (hd : decodeOpcode defaultOpcodes x = some o) (ho : o.hasOperand = true) :
    step s = exec (o.toInstr v) (fetched s x (s.pc + 2#9)) := by
  obtain ⟨h, rfl⟩ := (Memory.read?_eq_some _).1 hx
  obtain ⟨h2, rfl⟩ := (Memory.read?_eq_some _).1 hv
  rcases tickWith_fetch_cases defaultOpcodes hh hs with ⟨h', -⟩ | ⟨-, hc⟩
  · omega
  · rcases hc with ⟨hd', -⟩ | ⟨_, hd', ho', -⟩ | ⟨_, -, -, hp, -⟩ | ⟨_, hd', -, -, ht⟩
    · simp [hd] at hd'
    · simp_all
    · omega
    · simp_all [step, pc_add_two]

theorem step_operandMissing (hh : s.halted = false) (hs : s.ie = false ∨ s.iq = [])
    (hx : s.mem.read? s.pc.toNat = some x) (hv : s.mem.read? (s.pc.toNat + 1) = none)
    (hd : decodeOpcode defaultOpcodes x = some o) (ho : o.hasOperand = true) :
    step s = .fault (.operandOutOfRange (s.pc + 1#9)) := by
  obtain ⟨h, rfl⟩ := (Memory.read?_eq_some _).1 hx
  have h2 := (Memory.read?_eq_none _).1 hv
  rcases tickWith_fetch_cases defaultOpcodes hh hs with ⟨h', -⟩ | ⟨-, hc⟩
  · omega
  · rcases hc with ⟨hd', -⟩ | ⟨_, hd', ho', -⟩ | ⟨_, -, -, -, ht⟩ | ⟨_, -, -, hp, -⟩
    · simp [hd] at hd'
    · simp_all
    · exact ht
    · omega

end Fetching

theorem step_halted {s : State} (h : s.halted = true) : step s = .next s := tickWith_halted h

theorem step_service {s : State} {c : Byte} {rest : List Byte} (hh : s.halted = false) (hie : s.ie = true)
    (hiq : s.iq = c :: rest) : step s = enterInterrupt c rest s.drawMdr := tickWith_service hh hie hiq

/-- The five ways a TICK that answers a next state can have gone, for any opcode values: `step` is the case
`defaultOpcodes`. -/
theorem tickWith_next_cases (tab : OpcodeTable) {s t : State} (h : tickWith tab s = .next t) :
    (s.halted = true ∧ t = s) ∨
    (∃ c rest, s.halted = false ∧ s.ie = true ∧ s.iq = c :: rest ∧ s.pc.toNat ≤ 255 ∧
      c.toNat < s.mem.capacity ∧ t = (saveContext rest s.drawMdr).setPc (zext9 (vectorRead c s.drawMdr))) ∨
    (s.halted = false ∧ (s.ie = false ∨ s.iq = []) ∧ s.pc.toNat < s.mem.capacity ∧
      ((decodeOpcode tab (s.mem.cell s.pc.toNat) = none ∧
          t = fetched s (s.mem.cell s.pc.toNat) (s.pc + 1#9)) ∨
       (∃ o, decodeOpcode tab (s.mem.cell s.pc.toNat) = some o ∧ o.hasOperand = false ∧
          exec (o.toInstr 0#8) (fetched s (s.mem.cell s.pc.toNat) (s.pc + 1#9)) = .next t) ∨
       (∃ o, decodeOpcode tab (s.mem.cell s.pc.toNat) = some o ∧ o.hasOperand = true ∧
          s.pc.toNat + 1 < s.mem.capacity ∧
          exec (o.toInstr (s.mem.cell (s.pc.toNat + 1)))
            (fetched s (s.mem.cell s.pc.toNat) (s.pc + 2#9)) = .next t))) := by
  cases hh : s.halted with
  | true =>
    rw [tickWith_halted hh] at h
    cases h
    exact .inl ⟨rfl, rfl⟩
  | false =>
    refine .inr ?_
    cases hs : serviceDue s with
    | some p =>
      obtain ⟨c, rest⟩ := p
      obtain ⟨hie, hiq⟩ := serviceDue_eq_some.1 hs
      rw [tickWith_service hh hie hiq] at h
      rcases enterInterrupt_cases c rest s.drawMdr with ⟨-, he⟩ | ⟨-, -, he⟩ | ⟨hpc, hc, he⟩
      · simp [he] at h
      · simp [he] at h
      · rw [he] at h
        cases h
        exact .inl ⟨c, rest, rfl, hie, hiq, hpc, hc, rfl⟩
    | none =>
      have hs := serviceDue_eq_none.1 hs
      refine .inr ⟨rfl, hs, ?_⟩
      rcases tickWith_fetch_cases tab hh hs with ⟨-, ht⟩ | ⟨hlt, hc⟩
      · simp [ht] at h
      · refine ⟨hlt, ?_⟩
        rcases hc with ⟨hd, ht⟩ | ⟨o, hd, ho, ht⟩ | ⟨o, -, -, -, ht⟩ | ⟨o, hd, ho, hp, ht⟩
        · rw [ht] at h
          cases h
          exact .inl ⟨hd, rfl⟩
        · exact .inr (.inl ⟨o, hd, ho, ht ▸ h⟩)
        · simp [ht] at h
        · rw [ht, pc_add_two] at h
          exact .inr (.inr ⟨o, hd, ho, hp, h⟩)

end Sys2Proof.Machine
end

