-- ==== Sys2Proof/Tests/Slice0.lean ====
section
/-! SUPPORT. The model's own tests, each one step on a small state, with results from the vectors of
spec/95_test_vectors.md or worked by hand from a rule; the smoke test of WellFormed; and, for every statement with
hypotheses, a state and operands that meet them. -/
namespace Sys2Proof.Tests
open Sys2Proof.Machine

/-- The reset state with PC moved and bytes placed (addresses rising). -/
def st (pc : PcWord) (cells : List Host.Cell) : State :=
  { State.reset with pc := pc, mem := { last := 255#8, cells := cells } }

/-- The same with the capacity 16 (vector V15). -/
def st16 (pc : PcWord) (cells : List Host.Cell) : State :=
  { State.resetOf 15#8 0 with pc := pc, mem := { last := 15#8, cells := cells } }

/-- The outcome is a next state that passes a check. -/
def ok (o : Host.Outcome State Fault Refusal) (p : State → Bool) : Bool :=
  match o with
  | .next s => p s
  | .fault _ => false
  | .refused _ => false

/-- The outcome is this fault. -/
def faults (o : Host.Outcome State Fault Refusal) (f : Fault) : Bool :=
  match o with
  | .next _ => false
  | .fault g => decide (f = g)
  | .refused _ => false

/-! ### WellFormed: each check refuses an ill-formed term -/

/-- R55: a table in which two mnemonics share a value is refused. -/
theorem test_opcode_table_refused : ¬ OpcodeTable.wf (fun _ => 0x01#8) := by decide

/-- R6: capacities 0 and 257 are refused, 1 and 256 are not. -/
theorem test_capacity_refused : capacityAdmitted 0 = false ∧ capacityAdmitted 257 = false ∧
    capacityAdmitted 1 = true ∧ capacityAdmitted 256 = true := by decide

/-- An address past the last cell of a memory of 16 is refused in each absolute form. -/
theorem test_instr_refused : (Instr.loadAMem 16#8).wf 16 = false ∧ (Instr.loadBMem 16#8).wf 16 = false ∧
    (Instr.storeA 16#8).wf 16 = false ∧ (Instr.storeB 16#8).wf 16 = false ∧ (Instr.jmp 16#8).wf 16 = false ∧
    (Instr.storeA 15#8).wf 16 = true ∧ (Instr.loadAVal 255#8).wf 16 = true := by decide

/-! ### Decoding: every constructor from a word written out from R54 -/

theorem test_decode_loads : decode [0b00000001#8, 0x05#8] = .instr (.loadAVal 0x05#8) [] ∧
    decode [0b00000010#8, 0xFF#8] = .instr (.loadBVal 0xFF#8) [] ∧
    decode [0b00000011#8, 0x20#8] = .instr (.loadAMem 0x20#8) [] ∧
    decode [0b00000100#8, 0x21#8] = .instr (.loadBMem 0x21#8) [] := by decide

theorem test_decode_stores : decode [0b00000101#8, 0x10#8] = .instr (.storeA 0x10#8) [] ∧
    decode [0b00000110#8, 0xFF#8] = .instr (.storeB 0xFF#8) [] := by decide

theorem test_decode_add_control : decode [0b00000111#8] = .instr .add [] ∧
    decode [0b00001000#8, 0x15#8] = .instr (.jmp 0x15#8) [] ∧
    decode [0b00001111#8] = .instr .halt [] ∧ decode [0b00010000#8] = .instr .noop [] := by decide

theorem test_decode_interrupt : decode [0b00001001#8] = .instr .enableInterrupts [] ∧
    decode [0b00001010#8] = .instr .iret [] := by decide

theorem test_decode_stack : decode [0b00001011#8] = .instr .pushA [] ∧ decode [0b00001100#8] = .instr .pushB [] ∧
    decode [0b00001101#8] = .instr .popA [] ∧ decode [0b00001110#8] = .instr .popB [] := by decide

/-- R56: 0x00 and 0x11 are unrecognised; R61: an opcode in the last cell has no operand byte. -/
theorem test_decode_rejections : decode [0x00#8, 0x01#8] = .unrecognised 0x00#8 [0x01#8] ∧
    decode [0x11#8] = .unrecognised 0x11#8 [] ∧ decode [0x08#8] = .operandMissing .jmp ∧ decode [] = .noBytes := by decide

/-- R34: in a table word the operand byte is bits 15..8; bits above the word are 0. -/
theorem test_decode_table_word : decodeTableWord 16 0x1005 = some (.storeA 0x10#8) ∧
    decodeTableWord 8 0x1005 = some (.storeA 0x00#8) ∧ decodeTableWord 8 0x00 = none := by decide

/-- The encoder on program P1 of spec/95_test_vectors.md: `01 05 05 10 0F`. -/
theorem test_encode_p1 : [Instr.loadAVal 5#8, .storeA 0x10#8, .halt].flatMap encode =
    [0x01#8, 0x05#8, 0x05#8, 0x10#8, 0x0F#8] := by decide

/-- The assembler on a loop with a label and a DATA byte: `LOOP: NOOP; JMP LOOP; DATA 0xFE` at 0x15 (R59; after P3). -/
theorem test_assemble_label : assemble defaultOpcodes 0x15
    [⟨some "LOOP", some (.op .noop none)⟩, ⟨none, some (.op .jmp (some (.label "LOOP")))⟩, ⟨none, some (.data 0xFE)⟩] =
    some [0x10#8, 0x08#8, 0x15#8, 0xFE#8] := by decide

/-- R59: an operand on a format S mnemonic, none on a format D one, a number above 255 are no lines. -/
theorem test_assemble_refused : assemble defaultOpcodes 0 [⟨none, some (.op .add (some (.byte 1)))⟩] = none ∧
    assemble defaultOpcodes 0 [⟨none, some (.op .jmp none)⟩] = none ∧
    assemble defaultOpcodes 0 [⟨none, some (.data 256)⟩] = none := by decide

/-! ### Instructions, one TICK each -/

/-- V6, TICK 1. -/
theorem test_loadAVal : ok (step (st 0 [(0, 0x01), (1, 0x05)]))
    (fun s => s.a = 0x05 ∧ s.b = 0 ∧ s.pc = 2 ∧ s.ir = 0x01 ∧ s.mar = 0) := by decide

/-- V11. -/
theorem test_loadBVal : ok (step { st 0x20 [(0x20, 0x02), (0x21, 0xFF)] with b := 0x07 })
    (fun s => s.b = 0xFF ∧ s.a = 0 ∧ s.pc = 0x22 ∧ s.ir = 0x02 ∧ s.mar = 0x20) := by decide

/-- V12, TICK 1: the instruction loads its own opcode byte. -/
theorem test_loadAMem : ok (step (st 0 [(0, 0x03), (1, 0x00)])) (fun s => s.a = 0x03 ∧ s.b = 0 ∧ s.pc = 2) := by decide

/-- V15, TICK 2: with C = 16 the read at 0x20 faults. -/
theorem test_loadAMem_out_of_range : faults (step (st16 2 [(2, 0x03), (3, 0x20)])) (.loadOutOfRange 0x20) := by decide

/-- V12, TICK 2: the instruction loads its own operand byte. -/
theorem test_loadBMem : ok (step { st 2 [(2, 0x04), (3, 0x03)] with a := 0x03 })
    (fun s => s.b = 0x03 ∧ s.a = 0x03 ∧ s.pc = 4) := by decide

/-- V13, TICK 2: the store over its own operand uses the operand as fetched. -/
theorem test_storeA : ok (step { st 2 [(2, 0x05), (3, 0x03)] with a := 0xAA })
    (fun s => s.mem.cells = [(2, 0x05), (3, 0xAA)] ∧ s.a = 0xAA ∧ s.pc = 4) := by decide

/-- V15, TICK 1: with C = 16 the write at 0x20 is ignored. -/
theorem test_storeA_ignored : ok (step (st16 0 [(0, 0x05), (1, 0x20)]))
    (fun s => s.mem.cells = [(0, 0x05), (1, 0x20)] ∧ s.pc = 2) := by decide

/-- V14. -/
theorem test_storeB : ok (step { st 0x30 [(0x30, 0x06), (0x31, 0xFF)] with b := 0xAB })
    (fun s => s.mem.cells = [(0x30, 0x06), (0x31, 0xFF), (0xFF, 0xAB)] ∧ s.sp = 0xFF ∧ s.pc = 0x32) := by decide

/-- V16: F0 + 20 wraps to 10. -/
theorem test_add_wraps : ok (step { st 4 [(4, 0x07)] with a := 0xF0, b := 0x20 })
    (fun s => s.a = 0x10 ∧ s.b = 0x20 ∧ s.pc = 5) := by decide

/-- V16: C8 + 64 is 2C, 80 + 80 is 00. -/
theorem test_add_table : add8 0xC8 0x64 = 0x2C ∧ add8 0x80 0x80 = 0x00 ∧ add8 0x7F 0x01 = 0x80 ∧ add8 0xFF 0xFF = 0xFE := by
  decide

/-- V17. -/
theorem test_jmp_to_itself : ok (step (st 0x20 [(0x20, 0x08), (0x21, 0x20)]))
    (fun s => s.pc = 0x20 ∧ s.ir = 0x08 ∧ s.mar = 0x20 ∧ s.sp = 0xFF) := by decide

/-- V18: HALT in the last cell. -/
theorem test_halt_last_cell : ok (step (st 0xFF [(0xFF, 0x0F)]))
    (fun s => s.halted ∧ s.pc = 256 ∧ s.ir = 0x0F ∧ s.mar = 0xFF) := by decide

/-- V19. -/
theorem test_noop : ok (step (st 0x15 [(0x15, 0x10)])) (fun s => s.pc = 0x16 ∧ s.ir = 0x10 ∧ s.mar = 0x15 ∧ !s.ie) := by
  decide

/-- V20, TICK 3. -/
theorem test_pushA : ok (step { st 4 [(4, 0x0B)] with a := 0x11, b := 0x22 })
    (fun s => s.mem.cells = [(4, 0x0B), (0xFF, 0x11)] ∧ s.sp = 0xFE ∧ s.a = 0x11 ∧ s.pc = 5) := by decide

/-- V21, TICK 1: at SP = 0 the push writes cell 0 and SP stays. -/
theorem test_pushA_saturates : ok (step { st 0 [(0, 0x0B), (1, 0x0B)] with a := 0xAA, sp := 0 })
    (fun s => s.mem.cells = [(0, 0xAA), (1, 0x0B)] ∧ s.sp = 0 ∧ s.pc = 1) := by decide

/-- V20, TICK 4. -/
theorem test_pushB : ok (step { st 5 [(5, 0x0C), (0xFF, 0x11)] with a := 0x11, b := 0x22, sp := 0xFE })
    (fun s => s.mem.cells = [(5, 0x0C), (0xFE, 0x22), (0xFF, 0x11)] ∧ s.sp = 0xFD) := by decide

/-- V20, TICK 5. -/
theorem test_popA : ok (step { st 6 [(6, 0x0D), (0xFE, 0x22), (0xFF, 0x11)] with a := 0x11, b := 0x22, sp := 0xFD })
    (fun s => s.a = 0x22 ∧ s.b = 0x22 ∧ s.sp = 0xFE ∧ s.pc = 7) := by decide

/-- V22, TICK 1: a pop of the empty stack. -/
theorem test_popA_empty : ok (step (st 0 [(0, 0x0D), (0xFF, 0x42)])) (fun s => s.a = 0x42 ∧ s.sp = 0xFF) := by decide

/-- V20, TICK 6. -/
theorem test_popB : ok (step { st 7 [(7, 0x0E), (0xFE, 0x22), (0xFF, 0x11)] with a := 0x22, b := 0x22, sp := 0xFE })
    (fun s => s.a = 0x22 ∧ s.b = 0x11 ∧ s.sp = 0xFF ∧ s.pc = 8) := by decide

/-- V7, TICK 1. -/
theorem test_enableInterrupts : ok (step (st 0 [(0, 0x09)])) (fun s => s.ie ∧ s.pc = 1 ∧ s.ir = 0x09) := by decide

/-- V7, TICK 3. -/
theorem test_iret : ok (step { st 0x50 [(0x50, 0x0A), (0xFF, 0x01)] with sp := 0xFE })
    (fun s => s.pc = 1 ∧ s.ie ∧ s.sp = 0xFF ∧ s.ir = 0x0A ∧ s.mar = 0x50) := by decide

/-- V22, TICK 2: IRET on an empty stack. -/
theorem test_iret_empty : ok (step (st 1 [(1, 0x0A), (0xFF, 0x42)])) (fun s => s.pc = 0x42 ∧ s.ie ∧ s.sp = 0xFF) := by decide

/-- V2, V8: an unrecognised byte. -/
theorem test_unrecognised : ok (step (st 0 [(0, 0xFF)])) (fun s => s.pc = 1 ∧ s.ir = 0xFF ∧ s.mar = 0 ∧ !s.halted) := by
  decide

/-! ### Interrupts, faults, events -/

/-- V7, TICK 2: service of code 7. -/
theorem test_service : ok (step { st 1 [(7, 0x50)] with ie := true, iq := [7], ir := 0x09 })
    (fun s => s.pc = 0x50 ∧ s.sp = 0xFE ∧ !s.ie ∧ s.iq = [] ∧ s.ir = 0x09 ∧ s.mar = 0 ∧
      s.mem.cells = [(7, 0x50), (0xFF, 0x01)]) := by decide

/-- V27: the vector is read after the push. -/
theorem test_service_vector_after_push : ok (step { st 0x11 [(3, 0x80)] with ie := true, iq := [3], sp := 3 })
    (fun s => s.pc = 0x11 ∧ s.sp = 2 ∧ s.mem.cells = [(3, 0x11)]) := by decide

/-- V9: a halted TICK services nothing. -/
theorem test_halted_tick : ok (step { st 2 [] with ie := true, iq := [9], halted := true })
    (fun s => s = { st 2 [] with ie := true, iq := [9], halted := true }) := by decide

/-- V28, V29, V30: the faults at the top of memory; V15's capacity for the vector. -/
theorem test_faults : faults (step (st 256 [])) (.fetchOutOfRange 256) ∧
    faults (step (st 255 [(255, 0x01)])) (.operandOutOfRange 256) ∧
    faults (step { st 256 [] with ie := true, iq := [3] }) (.pcNotByte 256) ∧
    faults (step { st16 0 [] with ie := true, iq := [16] }) (.vectorOutOfRange 16) := by decide

/-- V5, V23: requests coalesce and keep their order. -/
theorem test_irq : ok (event (.irq 3) (st 0 [])) (fun s => s.iq = [3]) ∧
    ok (event (.irq 2) { st 0 [] with iq := [3] }) (fun s => s.iq = [3, 2]) ∧
    ok (event (.irq 3) { st 0 [] with iq := [3, 2] }) (fun s => s.iq = [3, 2]) := by decide

/-- V31: truncation at capacity; V34: an empty LOAD sets PC only; V33: a halted core stays halted. -/
theorem test_load : ok (event (.load [1, 2, 3] 254) (st 0 []))
      (fun s => s.mem.cells = [(254, 1), (255, 2)] ∧ s.pc = 254) ∧
    ok (event (.load [] 0) (st 7 [(7, 0x50)])) (fun s => s.mem.cells = [(7, 0x50)] ∧ s.pc = 0) ∧
    ok (event (.load [0x10] 0x40) { st 5 [] with halted := true }) (fun s => s.halted ∧ s.pc = 0x40) := by decide

/-- V1, V15: RESET(256) and RESET(16); R6: RESET(257) is refused. -/
theorem test_reset : ok (event (.reset 256) { st 9 [] with halted := true })
      (fun s => s.sp = 255 ∧ s.pc = 0 ∧ !s.ie ∧ !s.halted) ∧
    ok (event (.reset 16) (st 0 [])) (fun s => s.sp = 15 ∧ s.mem.capacity = 16) ∧
    event (.reset 257) (st 0 []) = .refused (.capacityNotAdmitted 257) := ⟨by decide, by decide, rfl⟩

/-- The first step after reset runs the word placed (log 18). -/
theorem test_withFetchWord : ok (step (State.reset.withFetchWord 16 0x0501)) (fun s => s.a = 5 ∧ s.pc = 2) ∧
    ok (step (State.reset.withFetchWord 8 0x03)) (fun s => s.a = 3) ∧
    ok (step (State.reset.withFetchWord 8 0x0F)) (fun s => s.halted) := by decide

/-! ### Witnesses: the hypotheses of each statement are met -/

/-- Another choice of opcode values (R54), pairwise distinct. -/
def highOpcodes : OpcodeTable := fun o => defaultOpcodes o + 0x80#8

theorem witness_tables : OpcodeTable.wf defaultOpcodes ∧ OpcodeTable.wf highOpcodes := by decide

theorem witness_EncodeInvertsDecode :
    decodeWith highOpcodes [0x81#8, 0x05#8, 0x00#8] = .instr (.loadAVal 5#8) [0x00#8] := by decide

theorem witness_LengthIsGivenByTheFirstByte : OpcodeTable.wf defaultOpcodes ∧
    decodeWith defaultOpcodes [0x01#8, 0x05#8] = .instr (.loadAVal 5#8) [] ∧
    decodeWith defaultOpcodes [0x11#8] = .unrecognised 0x11#8 [] := by decide

/-- One state for each outcome of the decoder. -/
theorem witness_StepRunsTheDecodedInstruction :
    ((st 256 []).Fetches ∧ decodeWith defaultOpcodes (st 256 []).code = .noBytes) ∧
    ((st 255 [(255, 0x01)]).Fetches ∧ decodeWith defaultOpcodes (st 255 [(255, 0x01)]).code = .operandMissing .loadAVal) ∧
    ((st 255 [(255, 0x00)]).Fetches ∧ decodeWith defaultOpcodes (st 255 [(255, 0x00)]).code = .unrecognised 0 []) ∧
    ((st 254 [(254, 0x01), (255, 0xFF)]).Fetches ∧
      decodeWith defaultOpcodes (st 254 [(254, 0x01), (255, 0xFF)]).code = .instr (.loadAVal 0xFF) []) :=
  ⟨⟨by decide, rfl⟩, ⟨by decide, rfl⟩, ⟨by decide, rfl⟩, ⟨by decide, rfl⟩⟩

/-- At PC = 255, running or halted, with and without a pending code; and a one-byte instruction with one cell only. -/
theorem witness_FetchWordIsFetchedNext : decodeTableWord 16 0xFF05 = some (.storeA 0xFF#8) ∧
    (Instr.storeA 0xFF#8).length ≤ (st 255 []).mem.capacity ∧
    decodeTableWord 8 0x10 = some .noop ∧ Instr.noop.length ≤ (State.resetOf 0#8 0).mem.capacity := by decide

theorem witness_HaltedTickChangesNothing : { st 256 [] with halted := true, ie := true, iq := [0] }.halted = true := by
  decide

theorem witness_UnrecognisedByteOnlyAdvancesPc :
    ((st 0 [(0, 0x00)]).Fetches ∧ (st 0 [(0, 0x00)]).mem.read? 0 = some 0x00#8) ∧
    ((st 255 [(255, 0x11)]).Fetches ∧ (st 255 [(255, 0x11)]).mem.read? 255 = some 0x11#8 ∧ 0x11#8 ≤ (0x11#8 : Byte)) ∧
    ((st 255 [(255, 0xFF)]).Fetches ∧ (st 255 [(255, 0xFF)]).mem.read? 255 = some 0xFF#8 ∧ 0x11#8 ≤ (0xFF#8 : Byte)) := by
  decide

theorem witness_LoadAbsoluteReadsItsCell : (15#8 : Byte).toNat < (st16 0 []).mem.capacity ∧
    (st16 0 []).mem.capacity ≤ (16#8 : Byte).toNat ∧ (255#8 : Byte).toNat < (st 0 []).mem.capacity := by decide

theorem witness_EveryInstructionCompletes : (Instr.loadAMem 15#8).wf (st16 0 []).mem.capacity = true ∧
    Instr.add.wf (st16 0 []).mem.capacity = true := by decide

theorem witness_TickLoadImmediate :
    ((st 254 [(254, 0x01), (255, 0xFF)]).Fetches ∧ (st 254 [(254, 0x01), (255, 0xFF)]).mem.read? 254 = some 0x01#8 ∧
      (st 254 [(254, 0x01), (255, 0xFF)]).mem.read? 255 = some 0xFF#8) ∧
    ((st 0 [(0, 0x02), (1, 0x00)]).Fetches ∧ (st 0 [(0, 0x02), (1, 0x00)]).mem.read? 0 = some 0x02#8 ∧
      (st 0 [(0, 0x02), (1, 0x00)]).mem.read? 1 = some 0x00#8) ∧
    ((st 255 [(255, 0x02)]).Fetches ∧ (st 255 [(255, 0x02)]).mem.read? 255 = some 0x02#8 ∧
      (st 255 [(255, 0x02)]).mem.read? 256 = none) := by decide

theorem witness_TickLoadAbsolute :
    ((st16 14 [(14, 0x03), (15, 0x0F)]).Fetches ∧ (st16 14 [(14, 0x03), (15, 0x0F)]).mem.read? 14 = some 0x03#8 ∧
      (st16 14 [(14, 0x03), (15, 0x0F)]).mem.read? 15 = some 0x0F#8) ∧
    ((st 0 [(0, 0x04), (1, 0x00)]).Fetches ∧ (st 0 [(0, 0x04), (1, 0x00)]).mem.read? 0 = some 0x04#8 ∧
      (st 0 [(0, 0x04), (1, 0x00)]).mem.read? 1 = some 0x00#8) ∧
    ((st16 14 [(14, 0x04), (15, 0x10)]).Fetches ∧ (st16 14 [(14, 0x04), (15, 0x10)]).mem.read? 14 = some 0x04#8 ∧
      (st16 14 [(14, 0x04), (15, 0x10)]).mem.read? 15 = some 0x10#8 ∧
      (st16 14 [(14, 0x04), (15, 0x10)]).mem.read? 16 = none) := by decide

theorem witness_TickStore :
    ((st 254 [(254, 0x05), (255, 0xFF)]).Fetches ∧ (st 254 [(254, 0x05), (255, 0xFF)]).mem.read? 254 = some 0x05#8 ∧
      (st 254 [(254, 0x05), (255, 0xFF)]).mem.read? 255 = some 0xFF#8) ∧
    ((st16 0 [(0, 0x06), (1, 0x10)]).Fetches ∧ (st16 0 [(0, 0x06), (1, 0x10)]).mem.read? 0 = some 0x06#8 ∧
      (st16 0 [(0, 0x06), (1, 0x10)]).mem.read? 1 = some 0x10#8) ∧
    ((st 255 [(255, 0x05)]).Fetches ∧ (st 255 [(255, 0x05)]).mem.read? 255 = some 0x05#8 ∧
      (st 255 [(255, 0x05)]).mem.read? 256 = none) := by decide

theorem witness_TickAdd : (st 255 [(255, 0x07)]).Fetches ∧ (st 255 [(255, 0x07)]).mem.read? 255 = some 0x07#8 := by decide

theorem witness_TickControl :
    ((st16 14 [(14, 0x08), (15, 0x10)]).Fetches ∧ (st16 14 [(14, 0x08), (15, 0x10)]).mem.read? 14 = some 0x08#8 ∧
      (st16 14 [(14, 0x08), (15, 0x10)]).mem.read? 15 = some 0x10#8 ∧
      (st16 14 [(14, 0x08), (15, 0x10)]).mem.capacity ≤ (0x10#8 : Byte).toNat) ∧
    ((st 255 [(255, 0x08)]).Fetches ∧ (st 255 [(255, 0x08)]).mem.read? 255 = some 0x08#8 ∧
      (st 255 [(255, 0x08)]).mem.read? 256 = none) ∧
    ((st 255 [(255, 0x0F)]).Fetches ∧ (st 255 [(255, 0x0F)]).mem.read? 255 = some 0x0F#8) ∧
    ((st 0 [(0, 0x10)]).Fetches ∧ (st 0 [(0, 0x10)]).mem.read? 0 = some 0x10#8) := by decide

/-- PUSH_A on the empty stack and PUSH_B at SP = 0. -/
theorem witness_TickPush :
    ((st 255 [(255, 0x0B)]).Fetches ∧ (st 255 [(255, 0x0B)]).sp.toNat < (st 255 [(255, 0x0B)]).mem.capacity ∧
      (st 255 [(255, 0x0B)]).mem.read? 255 = some 0x0B#8) ∧
    ({ st 0 [(0, 0x0C)] with sp := 0 }.Fetches ∧ (0#8 : Byte).toNat < (st 0 [(0, 0x0C)]).mem.capacity ∧
      (st 0 [(0, 0x0C)]).mem.read? 0 = some 0x0C#8) := by decide

theorem witness_TickPop : (st 0 [(0, 0x0D)]).Fetches ∧ (st 0 [(0, 0x0D)]).mem.read? 0 = some 0x0D#8 ∧
    { st 0 [(0, 0x0E)] with sp := 0 }.Fetches ∧ (st 0 [(0, 0x0E)]).mem.read? 0 = some 0x0E#8 := by decide

theorem witness_TickInterruptControl :
    ({ st 0 [(0, 0x09)] with iq := [4] }.Fetches ∧ (st 0 [(0, 0x09)]).mem.read? 0 = some 0x09#8) ∧
    ({ st 0 [(0, 0x0A)] with iq := [4, 5] }.Fetches ∧ (st 0 [(0, 0x0A)]).mem.read? 0 = some 0x0A#8) := by decide

theorem witness_NoFaultBelowTheTopOfMemory : (st 254 []).mem.capacity = 256 ∧ (st 254 []).pc.toNat ≤ 254 ∧
    (st 255 []).mem.capacity = 256 ∧ (st 255 []).pc.toNat = 255 := by decide

theorem witness_PcPassesTheTopByIncrementOnly :
    ((st 255 [(255, 0x10)]).halted = false ∧ ∃ t, step (st 255 [(255, 0x10)]) = .next t ∧ 255 < t.pc.toNat) ∧
    ((st 254 [(254, 0x01), (255, 0x00)]).halted = false ∧
      ∃ t, step (st 254 [(254, 0x01), (255, 0x00)]) = .next t ∧ 255 < t.pc.toNat) :=
  ⟨⟨rfl, _, rfl, by decide⟩, ⟨rfl, _, rfl, by decide⟩⟩

/-- A state in which code 255 is due, with PC and SP at 255. -/
def due : State := { st 255 [(255, 0x40)] with ie := true, iq := [255, 2] }

theorem witness_ServiceEntersTheHandler : due.Services 255 [2] ∧ due.sp.toNat < due.mem.capacity ∧
    due.pc.toNat ≤ 255 ∧ (255#8 : Byte).toNat < due.mem.capacity := by decide

theorem witness_RequestIsServicedByTheNextTick : { st 255 [] with ie := true }.halted = false ∧
    { st 255 [] with ie := true }.ie = true ∧ { st 255 [] with ie := true }.iq = [] ∧
    { st 255 [] with ie := true }.pc.toNat ≤ 255 ∧ (0#8 : Byte).toNat < (st 255 []).mem.capacity := by decide

/-- The handler's state is here the one service left. -/
theorem witness_IretResumesTheInterruptedProgram : due.Services 255 [2] ∧ due.sp.toNat < due.mem.capacity ∧
    1 ≤ due.sp.toNat ∧ ∃ t h : State, step due = .next t ∧ h.sp = t.sp ∧ h.mem.capacity = t.mem.capacity ∧
      h.mem.read? due.sp.toNat = t.mem.read? due.sp.toNat :=
  ⟨by decide, by decide, by decide, _, _, rfl, rfl, rfl, rfl⟩

theorem witness_BackToBackServiceAfterIret : { st 0 [(0, 0x0A)] with iq := [255, 1] }.Fetches ∧
    (st 0 [(0, 0x0A)]).mem.read? 0 = some 0x0A#8 ∧ (255#8 : Byte).toNat < (st 0 [(0, 0x0A)]).mem.capacity := by decide

/-- At both ends of the range of SP; this also serves PushThenIretIsAComputedJump. -/
theorem witness_PushThenPopRestores : (1 ≤ (1#8 : Byte).toNat ∧ { st 0 [] with sp := 1 }.sp.toNat < (st 0 []).mem.capacity) ∧
    (1 ≤ (st 0 []).sp.toNat ∧ (st 0 []).sp.toNat < (st 0 []).mem.capacity) := by decide

theorem witness_StackSaturatesAtItsBounds : { State.resetOf 1#8 0 with sp := 0 }.sp = 0#8 ∧
    2 ≤ (State.resetOf 1#8 0).mem.capacity ∧ (State.resetOf 0#8 0).sp.toNat = (State.resetOf 0#8 0).mem.capacity - 1 ∧
    (st 0 []).sp.toNat = (st 0 []).mem.capacity - 1 := by decide

theorem witness_StackIsLastInFirstOut : [1#8, 2#8, 3#8].length ≤ (st16 0 []).sp.toNat ∧
    (st16 0 []).sp.toNat < (st16 0 []).mem.capacity := by decide

/-- Each way a byte can be stored, and a fetch of it: 0x10 (NOOP) is stored in the last cell. -/
theorem witness_StoreIsSeenByTheNextFetch :
    (∃ t u, exec (.storeA 255) { st 0 [] with a := 0x10 } = .next t ∧ t.Fetches ∧ step { t with pc := 255 } = .next u) ∧
    (∃ t u, exec (.storeB 255) { st 0 [] with b := 0x10 } = .next t ∧ t.Fetches ∧ step { t with pc := 255 } = .next u) ∧
    (∃ t u, exec .pushA { st 0 [] with a := 0x10 } = .next t ∧ t.Fetches ∧ step { t with pc := 255 } = .next u) ∧
    (∃ t u, exec .pushB { st 0 [] with b := 0x10 } = .next t ∧ t.Fetches ∧ step { t with pc := 255 } = .next u) ∧
    (∃ t u, { st 0x10 [] with ie := true, iq := [0] }.Services 0 [] ∧
      step { st 0x10 [] with ie := true, iq := [0] } = .next t ∧ t.Fetches ∧ step { t with pc := 255 } = .next u) :=
  ⟨⟨_, _, rfl, by decide, rfl⟩, ⟨_, _, rfl, by decide, rfl⟩, ⟨_, _, rfl, by decide, rfl⟩, ⟨_, _, rfl, by decide, rfl⟩,
    ⟨_, _, by decide, rfl, ⟨rfl, .inl rfl⟩, rfl⟩⟩

theorem witness_ResetLeavesTheStatedValues : (1 ≤ 1 ∧ 1 ≤ 256) ∧ (1 ≤ 256 ∧ 256 ≤ 256) ∧ ¬ (1 ≤ 0 ∧ 0 ≤ 256) ∧
    ¬ (1 ≤ 257 ∧ 257 ≤ 256) := by decide

/-- For TickKeepsTheInvariants as well. -/
theorem witness_invariants : (st 254 [(254, 0x01), (255, 0xFF)]).Inv ∧ due.Inv ∧
    (∃ t, tickWith defaultOpcodes (st 254 [(254, 0x01), (255, 0xFF)]) = .next t) ∧
    (∃ t, event (.reset 1) due = .next t) ∧ (∃ t, event (.load [1, 2] 255) due = .next t) ∧
    (∃ t, event (.irq 3) due = .next t) ∧ ∃ t, exec (.loadAMem 255) due = .next t :=
  ⟨by decide, by decide, ⟨_, rfl⟩, ⟨_, rfl⟩, ⟨_, rfl⟩, ⟨_, rfl⟩, ⟨_, rfl⟩⟩

/-- Each clause of the frame, at the ends of its range: a store at the last cell, pushes at both ends of the stack, and a
form that stores nothing. -/
theorem witness_InstructionsChangeOnlyWhatTheyName : (∃ t, exec (.storeA 255) due = .next t) ∧
    (∃ t, exec (.storeB 0) due = .next t) ∧ (∃ t, exec .pushA State.reset = .next t) ∧
    (∃ t, exec .pushB { State.reset with sp := 0 } = .next t) ∧ (∃ t, exec (.loadAMem 255) due = .next t) ∧
    ((∀ addr, Instr.loadAMem 255 ≠ .storeA addr ∧ Instr.loadAMem 255 ≠ .storeB addr) ∧
      Instr.loadAMem 255 ≠ .pushA ∧ Instr.loadAMem 255 ≠ .pushB) :=
  ⟨⟨_, rfl⟩, ⟨_, rfl⟩, ⟨_, rfl⟩, ⟨_, rfl⟩, ⟨_, rfl⟩, by simp⟩

/-- Reset itself, and a state after a LOAD, a request and two TICKs, one of them a service. -/
theorem witness_ReachableStatesMeetTheInvariants : Reachable State.reset ∧
    ∃ t, runEvents defaultOpcodes [.load [0x09] 0x40, .irq 9, .tick, .tick] State.reset = .next t :=
  ⟨⟨[], rfl⟩, _, rfl⟩

theorem witness_RegisterAccessMatrix : (∃ t, exec .popA due = .next t) ∧
    (Instr.popB.op ≠ .storeA ∧ Instr.popB.op ≠ .add ∧ Instr.popB.op ≠ .pushA) ∧
    (Instr.popA.op ≠ .storeB ∧ Instr.popA.op ≠ .add ∧ Instr.popA.op ≠ .pushB) ∧
    (due.Services 255 [2] ∧ ∃ t, step due = .next t) ∧
    (∃ t, { due with halted := true }.halted = true ∧ step { due with halted := true } = .next t) ∧
    (∃ t, event (.load [1] 0) due = .next t) ∧ ∃ t, event (.irq 1) due = .next t :=
  ⟨⟨_, rfl⟩, by decide, by decide, ⟨by decide, _, rfl⟩, ⟨_, rfl, rfl⟩, ⟨_, rfl⟩, ⟨_, rfl⟩⟩

theorem witness_InterruptEnableChangesInThreeWays :
    (∃ t, event .tick (st 0 [(0, 0x09)]) = .next t ∧ t.ie ≠ (st 0 [(0, 0x09)]).ie) ∧
    (∃ t, event .tick due = .next t ∧ t.ie ≠ due.ie) ∧ (∃ t, event (.reset 256) due = .next t ∧ t.ie ≠ due.ie) :=
  ⟨⟨_, rfl, by decide⟩, ⟨_, rfl, by decide⟩, ⟨_, rfl, by decide⟩⟩

theorem witness_HaltedIsSetByHaltOnly :
    (∃ t, event .tick (st 255 [(255, 0x0F)]) = .next t ∧ t.halted ≠ (st 255 [(255, 0x0F)]).halted) ∧
    (∃ t, event (.reset 1) { due with halted := true } = .next t ∧ t.halted ≠ { due with halted := true }.halted) :=
  ⟨⟨_, rfl, by decide⟩, ⟨_, rfl, by decide⟩⟩

theorem witness_NothingWakesAHaltedCore : { due with halted := true }.halted = true ∧
    (∀ c, Event.reset c ∉ [Event.tick, .irq 7, .load [0x10] 0, .tick]) ∧
    ∃ t, runEvents defaultOpcodes [.tick, .irq 7, .load [0x10] 0, .tick] { due with halted := true } = .next t :=
  ⟨rfl, by simp, _, rfl⟩

/-- For QueueIsFirstInFirstOut and LatchesAreWrittenByTheFetchOnly: each kind of event. -/
theorem witness_events : (∃ t, event .tick due = .next t) ∧ (∃ t, event (.irq 7) due = .next t) ∧
    (∃ t, event (.reset 16) due = .next t) ∧ (∃ t, event (.load [] 1) due = .next t) ∧
    ∃ t, event .tick (st 0 [(0, 0x10)]) = .next t :=
  ⟨⟨_, rfl⟩, ⟨_, rfl⟩, ⟨_, rfl⟩, ⟨_, rfl⟩, ⟨_, rfl⟩⟩

/-- Two states that differ in every latch. -/
theorem witness_LatchesInfluenceNothing :
    { due with ir := 1, mar := 2, mdr := 3, draws := 4 }.withoutLatches = due.withoutLatches ∧
    { due with ir := 1, mar := 2, mdr := 3, draws := 4 } ≠ due := ⟨rfl, by decide⟩

/-- Two different states with one surface, MDR apart: a cell never written, and the same cell written with its reset
contents, with another MDR and another count of draws. -/
theorem witness_SurfaceDecidesTheRun : ∃ s s' : State, s ≠ s' ∧ s.surface.withoutMdr = s'.surface.withoutMdr :=
  ⟨State.resetOf 3#8 0,
    { State.resetOf 3#8 7 with mem := { last := 3#8, cells := [(2, Config.memReset 2)] }, mdr := 5#8 },
    fun h => by simpa [State.resetOf] using congrArg (fun s => s.mem.cells.length) h, rfl⟩

/-- R59, by hand: at base 0x10, `JMP end; x: DATA 7; end: STORE_A x; HALT` is 08 13 07 05 12 0F. -/
theorem test_assemble_labels_and_data : assemble defaultOpcodes 0x10
    [⟨none, some (.op .jmp (some (.label "end")))⟩, ⟨some "x", some (.data 7)⟩, ⟨some "end", none⟩,
      ⟨none, some (.op .storeA (some (.label "x")))⟩, ⟨none, some (.op .halt none)⟩] =
    some [0x08, 0x13, 0x07, 0x05, 0x12, 0x0F] := by decide

/-- A label at 255 is a byte, one at 256 is none; a label defined twice, a number above 255 and an operand of a format S
mnemonic are refused. -/
theorem test_assemble_refuses :
    assemble defaultOpcodes 255 [⟨some "x", none⟩, ⟨none, some (.op .jmp (some (.label "x")))⟩] = some [0x08, 0xFF] ∧
    assemble defaultOpcodes 256 [⟨some "x", none⟩, ⟨none, some (.op .jmp (some (.label "x")))⟩] = none ∧
    assemble defaultOpcodes 0 [⟨some "x", none⟩, ⟨some "x", none⟩] = none ∧
    assemble defaultOpcodes 0 [⟨none, some (.data 256)⟩] = none ∧
    assemble defaultOpcodes 0 [⟨none, some (.op .halt (some (.byte 1)))⟩] = none := by decide

/-- The last cell of a memory of 16 cells, the first address past it, and another cell. -/
theorem witness_MemoryWriteChangesItsCellOnly : 15 < (st16 0 []).mem.capacity ∧ (st16 0 []).mem.capacity ≤ 16 ∧
    (14 : Nat) ≠ 15 := by decide

/-- Each disjunct of R120's table is met by a state (see also `test_faults` and `test_loadAMem_out_of_range`). -/
theorem witness_TickFaultsExactlyWhenStated : faults (step { st 256 [] with ie := true, iq := [3] }) (.pcNotByte 256) ∧
    faults (step { st16 15 [] with ie := true, iq := [16] }) (.vectorOutOfRange 16) ∧
    faults (step (st16 16 [])) (.fetchOutOfRange 16) ∧
    faults (step (st16 15 [(15, 0x08)])) (.operandOutOfRange 16) ∧
    faults (step (st16 14 [(14, 0x04), (15, 0x10)])) (.loadOutOfRange 16) := by decide

end Sys2Proof.Tests
end

section
/-! The memory array (spec/20_memory.md): the statement about the write primitive, from the laws of memory. -/
namespace Sys2Proof.Machine

/-- Settles O58: each clause of R32 is a law of `Memory.write`, one for a read of the cell written, one for a read of
any other cell, one for a write from the capacity on, and one for the capacity. -/
theorem memoryWriteChangesItsCellOnly : Obligations.MemoryWriteChangesItsCellOnly := by
  intro m a v
  have same : a < m.capacity → (m.write a v).read? a = some v := m.read?_write_same v
  have other : ∀ p, p ≠ a → (m.write a v).read? p = m.read? p := fun _ => m.read?_write_other v
  exact ⟨same, other, m.write_out_of_range v, m.write_capacity a v⟩

end Sys2Proof.Machine
end

section
/-! Encoding (spec/30_encoding.md): what the decoder answers and what length R57 gives, one lemma for each way the first
byte can be recognised; and the statement that the length depends on the first byte alone. -/
namespace Sys2Proof

theorem Op.length_eq_two_iff (o : Op) : o.length = 2 ↔ o.hasOperand = true := by simp [Op.length]

theorem Op.length_eq_one_or_two (o : Op) : o.length = 1 ∨ o.length = 2 := by cases o <;> decide

section Recognised

variable {t : OpcodeTable} {b : Byte} {o : Op}

theorem lengthAt_unrecognised (h : decodeOpcode t b = none) : lengthAt t b = 1 := by simp [lengthAt, h]

theorem lengthAt_recognised (h : decodeOpcode t b = some o) : lengthAt t b = o.length := by simp [lengthAt, h]

theorem decodeWith_unrecognised (h : decodeOpcode t b = none) (rest : List Byte) :
    decodeWith t (b :: rest) = .unrecognised b rest := by
  simp [decodeWith, h]

theorem decodeWith_single (h : decodeOpcode t b = some o) (ho : o.hasOperand = false) (rest : List Byte) :
    decodeWith t (b :: rest) = .instr (o.toInstr 0#8) rest := by
  simp [decodeWith, h, ho]

theorem decodeWith_double (h : decodeOpcode t b = some o) (ho : o.hasOperand = true) (v : Byte) (rest : List Byte) :
    decodeWith t (b :: v :: rest) = .instr (o.toInstr v) rest := by
  simp [decodeWith, h, ho]

theorem decodeWith_operand_missing (h : decodeOpcode t b = some o) (ho : o.hasOperand = true) :
    decodeWith t [b] = .operandMissing o := by
  simp [decodeWith, h, ho]

end Recognised

theorem lengthAt_eq_one_or_two (t : OpcodeTable) (b : Byte) : lengthAt t b = 1 ∨ lengthAt t b = 2 := by
  cases hd : decodeOpcode t b with
  | none => exact .inl (lengthAt_unrecognised hd)
  | some o =>
    rw [lengthAt_recognised hd]
    exact o.length_eq_one_or_two

/-- That the values are pairwise distinct is needed from right to left: with a shared value, the byte is recognised as
the first mnemonic of the table that has it. -/
theorem lengthAt_eq_two_iff {t : OpcodeTable} (ht : t.wf) (b : Byte) :
    lengthAt t b = 2 ↔ ∃ o : Op, o.hasOperand = true ∧ t o = b := by
  constructor
  · intro hlen
    cases hd : decodeOpcode t b with
    | none => simp [lengthAt_unrecognised hd] at hlen
    | some o =>
      rw [lengthAt_recognised hd] at hlen
      exact ⟨o, o.length_eq_two_iff.1 hlen, decodeOpcode_some hd⟩
  · rintro ⟨o, ho, rfl⟩
    rw [lengthAt_recognised (decodeOpcode_value ht o)]
    exact o.length_eq_two_iff.2 ho

/-- Behind an instruction the decoder leaves what the length of its first byte does not cover (R57). -/
theorem decodeWith_instr_left {t : OpcodeTable} {b : Byte} {rest left : List Byte} {i : Instr}
    (h : decodeWith t (b :: rest) = .instr i left) : left = (b :: rest).drop (lengthAt t b) := by
  cases hd : decodeOpcode t b with
  | none => simp [decodeWith_unrecognised hd] at h
  | some o =>
    rw [lengthAt_recognised hd]
    cases ho : o.hasOperand with
    | false =>
      obtain ⟨-, rfl⟩ : o.toInstr 0#8 = i ∧ rest = left := by simpa [decodeWith_single hd ho] using h
      simp [Op.length, ho]
    | true =>
      cases rest with
      | nil => simp [decodeWith_operand_missing hd ho] at h
      | cons v rest =>
        obtain ⟨-, rfl⟩ : o.toInstr v = i ∧ rest = left := by simpa [decodeWith_double hd ho] using h
        simp [Op.length, ho]

/-- An unrecognised byte is one byte long, and the decoder leaves all that follows it (R56, R57). -/
theorem decodeWith_unrecognised_left {t : OpcodeTable} {b x : Byte} {rest left : List Byte}
    (h : decodeWith t (b :: rest) = .unrecognised x left) : left = (b :: rest).drop (lengthAt t b) := by
  cases hd : decodeOpcode t b with
  | none =>
    obtain ⟨-, rfl⟩ : b = x ∧ rest = left := by simpa [decodeWith_unrecognised hd] using h
    simp [lengthAt_unrecognised hd]
  | some o =>
    cases ho : o.hasOperand with
    | false => simp [decodeWith_single hd ho] at h
    | true =>
      cases rest with
      | nil => simp [decodeWith_operand_missing hd ho] at h
      | cons v rest => simp [decodeWith_double hd ho] at h

/-- Settles O5: the length is read off what the first byte is recognised as, and what the decoder leaves is compared
with it in each of the ways that byte can be recognised. -/
theorem lengthIsGivenByTheFirstByte : Obligations.LengthIsGivenByTheFirstByte := by
  intro t ht b rest
  exact ⟨lengthAt_eq_two_iff ht b, lengthAt_eq_one_or_two t b, fun _ _ => decodeWith_instr_left,
    fun _ _ => decodeWith_unrecognised_left⟩

end Sys2Proof
end

section
/-! The execution cycle (spec/40_execution_cycle.md): a run from a state that its step answers unchanged, and the
statement about the TICK of a halted core. -/
namespace Sys2Proof.Machine

/-- A state that its own step answers unchanged is where any number of steps ends. -/
theorem run_of_step_self (M : Host.Core) {s : M.State} (h : M.step s = .next s) (k : Nat) : M.run k s = .next s := by
  induction k with
  | zero => rfl
  | succ k ih => simp [Host.Core.run, h, ih]

/-- Settles O10: `tickWith_halted` under any table, and for `core` that step repeated by `run_of_step_self`. -/
theorem haltedTickChangesNothing : Obligations.HaltedTickChangesNothing := by
  intro s hs
  exact ⟨fun _ => tickWith_halted hs, run_of_step_self core (step_halted hs)⟩

end Sys2Proof.Machine
end

section
/-! Encoding (spec/30_encoding.md R50 to R56): the encoder and the decoder undo each other, for one instruction and for
a whole program; what is decoded as an instruction, and which bytes are unrecognised. -/
namespace Sys2Proof

/-- The encoding of the instruction a mnemonic makes of a byte: the opcode value, and the byte for format D only. -/
theorem encodeWith_toInstr (t : OpcodeTable) (o : Op) (v : Byte) :
    encodeWith t (o.toInstr v) = t o :: if o.hasOperand then [v] else [] := by
  rw [encodeWith, toInstr_op, toInstr_operand]
  cases o.hasOperand <;> rfl

/-- With pairwise distinct values the decoder undoes the encoder: the opcode value is recognised as its mnemonic, which
with the operand determines the instruction. -/
theorem decodeWith_encodeWith {t : OpcodeTable} (ht : t.wf) (i : Instr) (rest : List Byte) :
    decodeWith t (encodeWith t i ++ rest) = .instr i rest := by
  have hd := decodeOpcode_value ht i.op
  cases hv : i.operand with
  | none =>
    have ho : i.op.hasOperand = false := by simp [← operand_isSome, hv]
    simp [encodeWith, hv, decodeWith_single hd ho, toInstr_of_no_operand _ hv]
  | some v =>
    have ho : i.op.hasOperand = true := by simp [← operand_isSome, hv]
    simp [encodeWith, hv, decodeWith_double hd ho, toInstr_of_operand hv]

/-- Settles O2: `decodeWith_encodeWith`. -/
theorem decodeInvertsEncode : Obligations.DecodeInvertsEncode := fun _ ht i rest => decodeWith_encodeWith ht i rest

/-- Bytes that are decoded to an instruction begin with a recognised opcode; the instruction is made of its mnemonic and,
for format D, of the byte that follows. -/
theorem decodeWith_eq_instr {t : OpcodeTable} {bytes rest : List Byte} {i : Instr}
    (h : decodeWith t bytes = .instr i rest) :
    ∃ b o, decodeOpcode t b = some o ∧
      ((o.hasOperand = false ∧ i = o.toInstr 0#8 ∧ bytes = b :: rest) ∨
       (o.hasOperand = true ∧ ∃ v, i = o.toInstr v ∧ bytes = b :: v :: rest)) := by
  cases bytes with
  | nil => cases h
  | cons b more =>
    cases hd : decodeOpcode t b with
    | none => simp [decodeWith_unrecognised hd] at h
    | some o =>
      refine ⟨b, o, hd, ?_⟩
      cases ho : o.hasOperand with
      | false =>
        obtain ⟨rfl, rfl⟩ : o.toInstr 0#8 = i ∧ more = rest := by simpa [decodeWith_single hd ho] using h
        exact .inl ⟨rfl, rfl, rfl⟩
      | true =>
        cases more with
        | nil => simp [decodeWith_operand_missing hd ho] at h
        | cons v more =>
          obtain ⟨rfl, rfl⟩ : o.toInstr v = i ∧ more = rest := by simpa [decodeWith_double hd ho] using h
          exact .inr ⟨rfl, v, rfl, rfl⟩

/-- Settles O3: in both formats the recognised byte is the value the encoder writes for the mnemonic. -/
theorem encodeInvertsDecode : Obligations.EncodeInvertsDecode := by
  intro t bytes i rest h
  obtain ⟨b, o, hd, ⟨ho, rfl, rfl⟩ | ⟨ho, v, rfl, rfl⟩⟩ := decodeWith_eq_instr h
  all_goals simp [encodeWith_toInstr, ho, decodeOpcode_some hd]

/-- Settles O6, by induction on the program: the decoder takes its first instruction and leaves the bytes of the others. -/
theorem encodedProgramDecodes : Obligations.EncodedProgramDecodes := by
  intro t ht is
  induction is with
  | nil => rfl
  | cons i is ih => simp [decodeAll, decodeWith_encodeWith ht, ih]

/-- Settles O1, by running the decoder on each word. -/
theorem sampleWordsDecode : Obligations.SampleWordsDecode := by
  unfold Obligations.SampleWordsDecode
  decide

theorem decodeWith_eq_unrecognised_iff (t : OpcodeTable) (b : Byte) (rest : List Byte) :
    decodeWith t (b :: rest) = .unrecognised b rest ↔ decodeOpcode t b = none := by
  refine ⟨fun h => ?_, fun hd => decodeWith_unrecognised hd rest⟩
  cases hd : decodeOpcode t b with
  | none => rfl
  | some o =>
    cases ho : o.hasOperand with
    | false => simp [decodeWith_single hd ho] at h
    | true =>
      cases rest with
      | nil => simp [decodeWith_operand_missing hd ho] at h
      | cons v rest => simp [decodeWith_double hd ho] at h

/-- Settles O4: a byte is unrecognised when it is no value of the table, and of the default table these bytes are known. -/
theorem unrecognisedBytesAreTheOthers : Obligations.UnrecognisedBytesAreTheOthers :=
  ⟨fun t b rest => (decodeWith_eq_unrecognised_iff t b rest).trans decodeOpcode_none,
    fun b => decodeOpcode_none.symm.trans (Machine.decodeOpcode_default_none b)⟩

end Sys2Proof
end

section
/-! The layer the proofs about instructions and TICKs stand on: the state an instruction leaves as a total function, with
its frame; when an instruction stops; and the TICKs that fetch, by the length of what they fetch. -/
namespace Sys2Proof.Machine

/-! ### Memory read back -/

theorem Memory.read?_write_of_lt (m : Memory) {a : Nat} (v : Byte) (h : a < m.capacity) (p : Nat) :
    (m.write a v).read? p = if p = a then some v else m.read? p := by
  by_cases e : p = a
  · simp [e, m.read?_write_same v h]
  · simp [e, m.read?_write_other v e]

theorem Memory.last_eq_of_capacity {m n : Memory} (h : m.capacity = n.capacity) : m.last = n.last :=
  BitVec.eq_of_toNat_eq (Nat.succ.inj h)

/-! ### What an instruction leaves -/

/-- The state instruction `i` leaves where it completes, as a total function: an absolute load is given the cell at its
address without the check of R77 and R78. `exec_eq_effect` ties it to `exec`. -/
def effect (i : Instr) (s : State) : State :=
  match i with
  | .loadAVal v => s.setReg .A v
  | .loadBVal v => s.setReg .B v
  | .loadAMem addr => s.setReg .A (s.mem.cell addr.toNat)
  | .loadBMem addr => s.setReg .B (s.mem.cell addr.toNat)
  | .storeA addr => s.store addr.toNat s.a
  | .storeB addr => s.store addr.toNat s.b
  | .add => s.setReg .A (s.a + s.b)
  | .jmp addr => s.setPc (zext9 addr)
  | .enableInterrupts => s.setIe true
  | .iret => returnFromInterrupt s
  | .pushA => push s.a s
  | .pushB => push s.b s
  | .popA => (popState s).setReg .A (popValue s)
  | .popB => (popState s).setReg .B (popValue s)
  | .halt => s.setHalted true
  | .noop => s

/-- The only stop of an instruction: an absolute load whose address is past the last cell (R77, R78). -/
def LoadsPastTheTop (i : Instr) (addr : Byte) (s : State) : Prop :=
  (i = .loadAMem addr ∨ i = .loadBMem addr) ∧ s.mem.capacity ≤ addr.toNat

/-- An instruction completes with its effect, or it is an absolute load past the last cell. -/
theorem exec_eq_effect (i : Instr) (s : State) :
    exec i s = .next (effect i s) ∨
      ∃ addr, LoadsPastTheTop i addr s ∧ exec i s = .fault (.loadOutOfRange addr) := by
  cases i
  case loadAMem addr =>
    by_cases h : addr.toNat < s.mem.capacity
    · exact .inl (loadAbsolute_of_lt h)
    · exact .inr ⟨addr, ⟨.inl rfl, by omega⟩, loadAbsolute_of_ge (by omega)⟩
  case loadBMem addr =>
    by_cases h : addr.toNat < s.mem.capacity
    · exact .inl (loadAbsolute_of_lt h)
    · exact .inr ⟨addr, ⟨.inr rfl, by omega⟩, loadAbsolute_of_ge (by omega)⟩
  case add => exact .inl (exec_add s)
  all_goals exact .inl rfl

theorem exec_loadsPastTheTop {i : Instr} {addr : Byte} {s : State} (h : LoadsPastTheTop i addr s) :
    exec i s = .fault (.loadOutOfRange addr) := by
  obtain ⟨rfl | rfl, hc⟩ := h <;> exact loadAbsolute_of_ge hc

theorem eq_effect_of_exec {i : Instr} {s t : State} (h : exec i s = .next t) : t = effect i s := by
  rcases exec_eq_effect i s with he | ⟨_, -, he⟩ <;> rw [he] at h <;> cases h
  rfl

theorem exec_fault_iff {i : Instr} {s : State} {f : Fault} :
    exec i s = .fault f ↔ ∃ addr, LoadsPastTheTop i addr s ∧ f = .loadOutOfRange addr := by
  constructor
  · intro h
    rcases exec_eq_effect i s with he | ⟨addr, hl, he⟩ <;> rw [he] at h <;> cases h
    exact ⟨addr, hl, rfl⟩
  · rintro ⟨addr, hl, rfl⟩
    exact exec_loadsPastTheTop hl

/-! ### The frame of an instruction, field by field -/

section Frame

variable (i : Instr) (s : State)

@[simp] theorem effect_ir : (effect i s).ir = s.ir := by cases i <;> simp [effect]
@[simp] theorem effect_mar : (effect i s).mar = s.mar := by cases i <;> simp [effect]
@[simp] theorem effect_mdr : (effect i s).mdr = s.mdr := by cases i <;> simp [effect]
@[simp] theorem effect_draws : (effect i s).draws = s.draws := by cases i <;> simp [effect]
@[simp] theorem effect_iq : (effect i s).iq = s.iq := by cases i <;> simp [effect]
@[simp] theorem effect_last : (effect i s).mem.last = s.mem.last := by cases i <;> simp [effect]
@[simp] theorem effect_capacity : (effect i s).mem.capacity = s.mem.capacity := by
  simp only [Memory.capacity, effect_last]

/-- IE is only ever set, and by the two instructions that set it (R16). -/
theorem effect_ie : (effect i s).ie = if i.op = .enableInterrupts ∨ i.op = .iret then true else s.ie := by
  cases i <;> simp [effect, Instr.op]

/-- HALTED is only ever set, and by HALT (R18). -/
theorem effect_halted : (effect i s).halted = if i.op = .halt then true else s.halted := by
  cases i <;> simp [effect, Instr.op]

variable {i}

theorem effect_a (h : ¬ (i.op = .loadAVal ∨ i.op = .loadAMem ∨ i.op = .add ∨ i.op = .popA)) :
    (effect i s).a = s.a := by
  cases i <;> simp [effect, Instr.op] at h ⊢

theorem effect_b (h : ¬ (i.op = .loadBVal ∨ i.op = .loadBMem ∨ i.op = .popB)) : (effect i s).b = s.b := by
  cases i <;> simp [effect, Instr.op] at h ⊢

theorem effect_pc (h : ¬ (i.op = .jmp ∨ i.op = .iret)) : (effect i s).pc = s.pc := by
  cases i <;> simp [effect, Instr.op] at h ⊢

/-- JMP and IRET leave PC at a byte (R85, R96). -/
theorem effect_pc_of_jump (h : i.op = .jmp ∨ i.op = .iret) : (effect i s).pc.toNat ≤ 255 := by
  cases i <;> simp [effect, Instr.op] at h ⊢ <;> exact Nat.le_of_lt_succ (BitVec.isLt _)

theorem effect_sp (h : ¬ (i = .pushA ∨ i = .pushB ∨ i = .popA ∨ i = .popB ∨ i = .iret)) :
    (effect i s).sp = s.sp := by
  cases i <;> simp [effect] at h ⊢

theorem effect_mem (hs : ∀ addr, i ≠ .storeA addr ∧ i ≠ .storeB addr) (ha : i ≠ .pushA) (hb : i ≠ .pushB) :
    (effect i s).mem = s.mem := by
  cases i <;> simp [effect] at hs ha hb ⊢

end Frame

/-! ### TICKs that fetch -/

/-- The second and the third alternative of R65 exclude each other. -/
theorem State.Fetches.not_services {s : State} {c : Byte} {rest : List Byte} (hf : s.Fetches) :
    ¬ s.Services c rest := by
  rintro ⟨-, hie, hiq⟩
  obtain ⟨-, h | h⟩ := hf <;> simp_all

/-- PC past an instruction, computed without wrap where the instruction fits into memory. -/
theorem pc_add_toNat (p : PcWord) (n : Nat) (h : p.toNat + n ≤ 256) : (p + BitVec.ofNat 9 n).toNat = p.toNat + n := by
  rw [BitVec.toNat_add, BitVec.toNat_ofNat]
  omega

/-- What a TICK that fetches and answers a next state has done, for any opcode values: the byte at PC was read, PC moved
past what it starts, and an unrecognised byte did nothing more, or an instruction had its effect. -/
theorem tickWith_fetch_next {tab : OpcodeTable} {s t : State} (hs : s.Fetches) (h : tickWith tab s = .next t) :
    ∃ x, s.mem.read? s.pc.toNat = some x ∧ s.pc.toNat + lengthAt tab x ≤ s.mem.capacity ∧
      ((decodeOpcode tab x = none ∧ t = fetched s x (s.pc + BitVec.ofNat 9 (lengthAt tab x))) ∨
       ∃ o v, decodeOpcode tab x = some o ∧
         t = effect (o.toInstr v) (fetched s x (s.pc + BitVec.ofNat 9 (lengthAt tab x)))) := by
  rcases tickWith_next_cases tab h with ⟨hh, -⟩ | ⟨c, rest, hh, hie, hiq, -⟩ | ⟨-, -, hlt, hc⟩
  · simp [hs.1] at hh
  · exact absurd ⟨hh, hie, hiq⟩ hs.not_services
  · refine ⟨s.mem.cell s.pc.toNat, s.mem.read?_of_lt hlt, ?_⟩
    rcases hc with ⟨hd, rfl⟩ | ⟨o, hd, ho, he⟩ | ⟨o, hd, ho, hlt', he⟩
    · rw [lengthAt_unrecognised hd]
      exact ⟨hlt, .inl ⟨hd, rfl⟩⟩
    · have hlen : lengthAt tab (s.mem.cell s.pc.toNat) = 1 := by simp [lengthAt_recognised hd, Op.length, ho]
      rw [hlen]
      exact ⟨hlt, .inr ⟨o, _, hd, eq_effect_of_exec he⟩⟩
    · have hlen : lengthAt tab (s.mem.cell s.pc.toNat) = 2 := by simp [lengthAt_recognised hd, Op.length, ho]
      rw [hlen]
      exact ⟨hlt', .inr ⟨o, _, hd, eq_effect_of_exec he⟩⟩

/-- What a TICK that services and answers a next state has done (R106). -/
theorem tickWith_service_next {tab : OpcodeTable} {s t : State} {c : Byte} {rest : List Byte}
    (hs : s.Services c rest) (h : tickWith tab s = .next t) :
    s.pc.toNat ≤ 255 ∧ c.toNat < s.mem.capacity ∧
      t = (saveContext rest s.drawMdr).setPc (zext9 (vectorRead c s)) := by
  obtain ⟨hh, hie, hiq⟩ := hs
  rw [tickWith_service hh hie hiq] at h
  rcases enterInterrupt_cases c rest s.drawMdr with ⟨-, he⟩ | ⟨-, -, he⟩ | ⟨hpc, hc, he⟩ <;> rw [he] at h <;> cases h
  exact ⟨hpc, hc, rfl⟩

/-- Every TICK is of one of the three kinds of R65. -/
theorem halted_or_services_or_fetches (s : State) :
    s.halted = true ∨ (∃ c rest, s.Services c rest) ∨ s.Fetches := by
  cases hh : s.halted with
  | true => exact .inl rfl
  | false =>
    cases hd : serviceDue s with
    | some p => exact .inr (.inl ⟨p.1, p.2, hh, serviceDue_eq_some.1 hd⟩)
    | none => exact .inr (.inr ⟨hh, serviceDue_eq_none.1 hd⟩)

section Step

variable {s : State}

/-- A TICK that fetches a format S opcode runs it with PC one further. -/
theorem step_formatS (hs : s.Fetches) (o : Op) (ho : o.hasOperand = false)
    (hx : s.mem.read? s.pc.toNat = some (defaultOpcodes o)) :
    step s = exec (o.toInstr 0#8) (fetched s (defaultOpcodes o) (s.pc + 1#9)) :=
  step_single hs.1 hs.2 hx (decodeOpcode_value defaultOpcodes_wf o) ho

/-- A TICK that fetches a format D opcode and its operand byte runs it with PC two further. -/
theorem step_formatD (hs : s.Fetches) (o : Op) (ho : o.hasOperand = true) {v : Byte}
    (hx : s.mem.read? s.pc.toNat = some (defaultOpcodes o)) (hv : s.mem.read? (s.pc.toNat + 1) = some v) :
    step s = exec (o.toInstr v) (fetched s (defaultOpcodes o) (s.pc + 2#9)) :=
  step_double hs.1 hs.2 hx hv (decodeOpcode_value defaultOpcodes_wf o) ho

/-- A TICK that fetches a format D opcode from the last cell faults (R70). -/
theorem step_formatD_fault (hs : s.Fetches) (o : Op) (ho : o.hasOperand = true)
    (hx : s.mem.read? s.pc.toNat = some (defaultOpcodes o)) (hv : s.mem.read? (s.pc.toNat + 1) = none) :
    step s = .fault (.operandOutOfRange (s.pc + 1#9)) :=
  step_operandMissing hs.1 hs.2 hx hv (decodeOpcode_value defaultOpcodes_wf o) ho

/-- A TICK that services a code, where PC is a byte and the vector a cell, enters its handler. -/
theorem step_enters {c : Byte} {rest : List Byte} (hs : s.Services c rest) (hpc : s.pc.toNat ≤ 255)
    (hc : c.toNat < s.mem.capacity) :
    step s = .next ((saveContext rest s.drawMdr).setPc (zext9 (vectorRead c s))) := by
  obtain ⟨hh, hie, hiq⟩ := hs
  rw [step_service hh hie hiq]
  exact enterInterrupt_of_ok hpc hc

end Step

end Sys2Proof.Machine
end

section
/-! Noninterference. A view of the state is a function of it that shows every piece a rule reads and that two states still
share after the same update. A view decides its own run: equal views stay equal under every event. The state without its
latches and the surface without MDR are views (spec/10_state.md R17, spec/80_host_interface.md R151). -/
namespace Sys2Proof.Machine

/-- What the rules read is the same in both states: everything but the latches, the memory by `MemRead`. -/
structure ReadAlike (s s' : State) : Prop where
  a : s.a = s'.a
  b : s.b = s'.b
  pc : s.pc = s'.pc
  sp : s.sp = s'.sp
  ie : s.ie = s'.ie
  halted : s.halted = s'.halted
  iq : s.iq = s'.iq
  read : ∀ p, s.mem.read? p = s'.mem.read? p

/-- Two states with one image under `f` have one image after the update as well. -/
def Respects {β : Type} (f : State → β) (update : State → State) : Prop :=
  ∀ {s s' : State}, f s = f s' → f (update s) = f (update s')

/-- `f` shows what the rules read, and the primitive updates respect it. -/
structure IsView {β : Type} (f : State → β) : Prop where
  alike : ∀ {s s' : State}, f s = f s' → ReadAlike s s'
  setReg : ∀ r v, Respects f (·.setReg r v)
  setPc : ∀ v, Respects f (·.setPc v)
  setSp : ∀ v, Respects f (·.setSp v)
  setIe : ∀ v, Respects f (·.setIe v)
  setHalted : ∀ v, Respects f (·.setHalted v)
  setIq : ∀ q, Respects f (·.setIq q)
  store : ∀ p v, Respects f (·.store p v)
  latchFetch : ∀ p x, Respects f (·.latchFetch p x)
  drawMdr : Respects f State.drawMdr
  resetOf : ∀ last n n', f (State.resetOf last n) = f (State.resetOf last n')

namespace ReadAlike

variable {s s' : State} (h : ReadAlike s s')
include h

theorem capacity_eq : s.mem.capacity = s'.mem.capacity :=
  Nat.le_antisymm ((Memory.read?_eq_none _).1 ((h.read _).trans (s'.mem.read?_of_ge (Nat.le_refl _))))
    ((Memory.read?_eq_none _).1 ((h.read _).symm.trans (s.mem.read?_of_ge (Nat.le_refl _))))

theorem poppedSp_eq : poppedSp s.mem.last s.sp = poppedSp s'.mem.last s'.sp := by
  rw [Memory.last_eq_of_capacity h.capacity_eq, h.sp]

theorem popValue_eq : popValue s = popValue s' := by
  have hread := h.read (popState s).sp.toNat
  rw [read?_popped, popState_sp, h.poppedSp_eq, ← popState_sp, read?_popped] at hread
  exact Option.some.inj hread

theorem serviceDue_eq : serviceDue s = serviceDue s' := by
  simp only [serviceDue, h.ie, h.iq]

end ReadAlike

/-! ### Outcomes that look the same -/

section MapNext

variable {α β γ : Type} {f : α → β}

theorem mapNext_next_congr {u u' : α} (h : f u = f u') :
    mapNext f (.next u) = mapNext f (.next u') := congrArg Host.Outcome.next h

/-- Two outcomes that look the same are next states that look the same, one fault, or one refusal. -/
theorem mapNext_eq_cases {o o' : Host.Outcome α Fault Refusal} (h : mapNext f o = mapNext f o') :
    (∃ u u', o = .next u ∧ o' = .next u' ∧ f u = f u') ∨ (∃ r, o = .fault r ∧ o' = .fault r) ∨
      ∃ r, o = .refused r ∧ o' = .refused r := by
  cases o <;> cases o' <;> simp_all [mapNext]

end MapNext

/-! ### A view decides its own run -/

namespace IsView

variable {β : Type} {f : State → β} (hf : IsView f) {s s' : State} (h : f s = f s')
include hf h

theorem respects_push (v : Byte) : f (push v s) = f (push v s') := by
  rw [push, push, (hf.alike h).sp]
  exact hf.setSp _ (hf.store _ v h)

theorem respects_popState : f (popState s) = f (popState s') := by
  rw [popState, popState, (hf.alike h).poppedSp_eq]
  exact hf.setSp _ h

theorem respects_returnFromInterrupt : f (returnFromInterrupt s) = f (returnFromInterrupt s') := by
  rw [returnFromInterrupt, returnFromInterrupt, (hf.alike h).popValue_eq]
  exact hf.setIe true (hf.setPc _ (hf.respects_popState h))

theorem respects_saveContext (rest : List Byte) : f (saveContext rest s) = f (saveContext rest s') := by
  rw [saveContext, saveContext, (hf.alike h).pc]
  exact hf.respects_push (hf.setIe false (hf.setIq rest h)) _

theorem loadAbsolute_congr (r : Reg) (addr : Byte) :
    mapNext f (loadAbsolute r addr s) = mapNext f (loadAbsolute r addr s') := by
  rw [loadAbsolute, loadAbsolute, (hf.alike h).read]
  cases s'.mem.read? addr.toNat with
  | none => rfl
  | some v => exact mapNext_next_congr (hf.setReg r v h)

/-- Every instruction computes from what a view shows. -/
theorem exec_congr (i : Instr) : mapNext f (exec i s) = mapNext f (exec i s') := by
  have hr := hf.alike h
  cases i with
  | loadAVal v => exact mapNext_next_congr (hf.setReg .A v h)
  | loadBVal v => exact mapNext_next_congr (hf.setReg .B v h)
  | loadAMem addr => exact hf.loadAbsolute_congr h .A addr
  | loadBMem addr => exact hf.loadAbsolute_congr h .B addr
  | storeA addr =>
    rw [exec_storeA, exec_storeA, hr.a]
    exact mapNext_next_congr (hf.store _ _ h)
  | storeB addr =>
    rw [exec_storeB, exec_storeB, hr.b]
    exact mapNext_next_congr (hf.store _ _ h)
  | add =>
    rw [exec_add, exec_add, hr.a, hr.b]
    exact mapNext_next_congr (hf.setReg .A _ h)
  | jmp addr => exact mapNext_next_congr (hf.setPc _ h)
  | enableInterrupts => exact mapNext_next_congr (hf.setIe true h)
  | iret => exact mapNext_next_congr (hf.respects_returnFromInterrupt h)
  | pushA =>
    rw [exec_pushA, exec_pushA, hr.a]
    exact mapNext_next_congr (hf.respects_push h _)
  | pushB =>
    rw [exec_pushB, exec_pushB, hr.b]
    exact mapNext_next_congr (hf.respects_push h _)
  | popA =>
    rw [exec_popA, exec_popA, hr.popValue_eq]
    exact mapNext_next_congr (hf.setReg .A _ (hf.respects_popState h))
  | popB =>
    rw [exec_popB, exec_popB, hr.popValue_eq]
    exact mapNext_next_congr (hf.setReg .B _ (hf.respects_popState h))
  | halt => exact mapNext_next_congr (hf.setHalted true h)
  | noop => exact mapNext_next_congr h

/-- The operand byte is read from what a view shows, and PC moves alike. -/
theorem executeOpcode_congr (t : OpcodeTable) (x : Byte) :
    mapNext f (executeOpcode t x s) = mapNext f (executeOpcode t x s') := by
  have hr := hf.alike h
  cases hd : decodeOpcode t x with
  | none =>
    rw [executeOpcode_unrecognised hd, executeOpcode_unrecognised hd]
    exact mapNext_next_congr h
  | some o =>
    cases ho : o.hasOperand with
    | false =>
      rw [executeOpcode_single hd ho, executeOpcode_single hd ho]
      exact hf.exec_congr h _
    | true =>
      have hread : s.mem.read? s.pc.toNat = s'.mem.read? s'.pc.toNat := by rw [hr.pc, hr.read]
      simp only [executeOpcode, hd, ho, if_true, readOperand, hread]
      cases s'.mem.read? s'.pc.toNat with
      | none => simp only [hr.pc]
      | some v =>
        simp only [hr.pc]
        exact hf.exec_congr (hf.setPc _ h) _

theorem fetchExecute_congr (t : OpcodeTable) : mapNext f (fetchExecute t s) = mapNext f (fetchExecute t s') := by
  have hr := hf.alike h
  have hread : s.mem.read? s.pc.toNat = s'.mem.read? s'.pc.toNat := by rw [hr.pc, hr.read]
  simp only [fetchExecute, fetchOpcode, hread]
  cases s'.mem.read? s'.pc.toNat with
  | none => simp only [hr.pc]
  | some x =>
    simp only [hr.pc]
    exact hf.executeOpcode_congr (hf.setPc _ (hf.latchFetch _ x h)) t x

theorem enterInterrupt_congr (c : Byte) (rest : List Byte) :
    mapNext f (enterInterrupt c rest s) = mapNext f (enterInterrupt c rest s') := by
  have hsaved := hf.respects_saveContext h rest
  simp only [enterInterrupt, (hf.alike h).pc, (hf.alike hsaved).read]
  split
  · rfl
  · cases (saveContext rest s').mem.read? (vectorBase + c.toNat) with
    | none => rfl
    | some v => exact mapNext_next_congr (hf.setPc _ hsaved)

theorem tickWith_congr (t : OpcodeTable) : mapNext f (tickWith t s) = mapNext f (tickWith t s') := by
  have hr := hf.alike h
  simp only [tickWith, hr.halted, hr.serviceDue_eq]
  split
  · exact mapNext_next_congr h
  · cases serviceDue s' with
    | none => exact hf.fetchExecute_congr (hf.drawMdr h) t
    | some p => exact hf.enterInterrupt_congr (hf.drawMdr h) p.1 p.2

/-- Loading an image is storing its bytes one after the other (R33). -/
theorem respects_loadImage (base : Nat) (bytes : List Byte) :
    f (s.setMem (s.mem.loadImage base bytes)) = f (s'.setMem (s'.mem.loadImage base bytes)) := by
  induction bytes generalizing s s' base with
  | nil => exact h
  | cons v rest ih => exact ih (hf.store base v h) (base + 1)

theorem eventWith_congr (t : OpcodeTable) (e : Event) : mapNext f (eventWith t e s) = mapNext f (eventWith t e s') := by
  cases e with
  | reset c =>
    simp only [eventWith, resetEvent]
    split
    · exact mapNext_next_congr (hf.resetOf _ _ _)
    · rfl
  | load bytes base => exact mapNext_next_congr (hf.setPc _ (hf.respects_loadImage h base.toNat bytes))
  | irq c =>
    simp only [eventWith, irqEvent_eq, (hf.alike h).iq]
    exact mapNext_next_congr (hf.setIq _ h)
  | tick => exact hf.tickWith_congr h t

/-- A view decides its own run, whatever the events. -/
theorem runEvents_congr (t : OpcodeTable) (es : List Event) :
    mapNext f (runEvents t es s) = mapNext f (runEvents t es s') := by
  induction es generalizing s s' with
  | nil => exact mapNext_next_congr h
  | cons e es ih =>
    rcases mapNext_eq_cases (hf.eventWith_congr h t e) with ⟨u, u', hu, hu', hv⟩ | ⟨r, hu, hu'⟩ | ⟨r, hu, hu'⟩ <;>
      simp only [runEvents, hu, hu']
    exact ih hv

end IsView

/-! ### The state without its latches -/

theorem withoutLatches_eq_iff {s s' : State} : s.withoutLatches = s'.withoutLatches ↔
    s.a = s'.a ∧ s.b = s'.b ∧ s.pc = s'.pc ∧ s.sp = s'.sp ∧ s.ie = s'.ie ∧ s.halted = s'.halted ∧ s.iq = s'.iq ∧
      s.mem = s'.mem := by
  simp [State.withoutLatches]

theorem isView_withoutLatches : IsView State.withoutLatches where
  alike h := by
    obtain ⟨ha, hb, hpc, hsp, hie, hh, hiq, hm⟩ := withoutLatches_eq_iff.1 h
    exact ⟨ha, hb, hpc, hsp, hie, hh, hiq, fun p => by rw [hm]⟩
  setReg r v _ _ h := by cases r <;> simp_all [withoutLatches_eq_iff]
  setPc v _ _ h := by simp_all [withoutLatches_eq_iff]
  setSp v _ _ h := by simp_all [withoutLatches_eq_iff]
  setIe v _ _ h := by simp_all [withoutLatches_eq_iff]
  setHalted v _ _ h := by simp_all [withoutLatches_eq_iff]
  setIq q _ _ h := by simp_all [withoutLatches_eq_iff]
  store p v _ _ h := by simp_all [withoutLatches_eq_iff]
  latchFetch p x _ _ h := by simpa [withoutLatches_eq_iff] using h
  drawMdr h := by simpa [withoutLatches_eq_iff] using h
  resetOf _ _ _ := rfl

/-- Settles O56: the state without its latches is a view. -/
theorem latchesInfluenceNothing : Obligations.LatchesInfluenceNothing :=
  fun t es _ _ h => isView_withoutLatches.runEvents_congr h t es

/-! ### The surface without MDR -/

theorem Memory.bytes_eq_iff {m n : Memory} : m.bytes = n.bytes ↔ ∀ p, m.read? p = n.read? p :=
  ⟨Memory.read?_eq_of_bytes, fun h => List.ext_getElem? fun p => by simp only [Memory.bytes_getElem?, h p]⟩

/-- A write shows where it fell within the capacity, whether or not the cell was listed before. -/
theorem Memory.bytes_write_congr {m n : Memory} (h : m.bytes = n.bytes) (p : Nat) (v : Byte) :
    (m.write p v).bytes = (n.write p v).bytes := by
  refine Memory.bytes_eq_iff.2 fun q => ?_
  rw [Memory.read?_write, Memory.read?_write, Memory.capacity_eq_of_bytes h, Memory.read?_eq_of_bytes h]

theorem surface_withoutMdr_eq_iff {s s' : State} : s.surface.withoutMdr = s'.surface.withoutMdr ↔
    s.a = s'.a ∧ s.b = s'.b ∧ s.ir = s'.ir ∧ s.mar = s'.mar ∧ s.pc = s'.pc ∧ s.sp = s'.sp ∧ s.ie = s'.ie ∧
      s.halted = s'.halted ∧ s.iq = s'.iq ∧ s.mem.bytes = s'.mem.bytes := by
  simp [State.surface, Surface.withoutMdr]

theorem isView_surface_withoutMdr : IsView (fun s => s.surface.withoutMdr) where
  alike h := by
    obtain ⟨ha, hb, -, -, hpc, hsp, hie, hh, hiq, hm⟩ := surface_withoutMdr_eq_iff.1 h
    exact ⟨ha, hb, hpc, hsp, hie, hh, hiq, Memory.bytes_eq_iff.1 hm⟩
  setReg r v _ _ h := by cases r <;> simp_all [surface_withoutMdr_eq_iff]
  setPc v _ _ h := by simp_all [surface_withoutMdr_eq_iff]
  setSp v _ _ h := by simp_all [surface_withoutMdr_eq_iff]
  setIe v _ _ h := by simp_all [surface_withoutMdr_eq_iff]
  setHalted v _ _ h := by simp_all [surface_withoutMdr_eq_iff]
  setIq q _ _ h := by simp_all [surface_withoutMdr_eq_iff]
  store p v _ _ h := by
    obtain ⟨ha, hb, hir, hmar, hpc, hsp, hie, hh, hiq, hm⟩ := surface_withoutMdr_eq_iff.1 h
    exact surface_withoutMdr_eq_iff.2 ⟨ha, hb, hir, hmar, hpc, hsp, hie, hh, hiq, Memory.bytes_write_congr hm p v⟩
  latchFetch p x _ _ h := by simp_all [surface_withoutMdr_eq_iff]
  drawMdr h := by simpa [surface_withoutMdr_eq_iff] using h
  resetOf _ _ _ := rfl

/-- Settles O57: the surface without MDR is a view; a store keeps it one because it is a list of the cells' contents. -/
theorem surfaceDecidesTheRun : Obligations.SurfaceDecidesTheRun :=
  fun t es _ _ h => isView_surface_withoutMdr.runEvents_congr h t es

end Sys2Proof.Machine
end

section
/-! The invariants of spec/10_state.md R24: each update keeps them, so each instruction and each event does, and so they
hold in every reachable state. -/
namespace Sys2Proof.Machine

/-! ### The updates that can touch an invariant -/

section Updates

variable {s : State} (h : s.Inv)
include h

theorem inv_setReg (r : Reg) (v : Byte) : (s.setReg r v).Inv := by cases r <;> exact h

theorem inv_setPc {p : PcWord} (hp : p.toNat ≤ 256) : (s.setPc p).Inv := by
  obtain ⟨hsp, -, hiq, hm⟩ := h
  exact ⟨hsp, hp, hiq, hm⟩

theorem inv_setPc_zext9 (v : Byte) : (s.setPc (zext9 v)).Inv :=
  inv_setPc h (by rw [zext9_toNat]; exact Nat.le_of_lt v.isLt)

theorem inv_setSp {sp : Byte} (hsp : sp.toNat < s.mem.capacity) : (s.setSp sp).Inv := by
  obtain ⟨-, hpc, hiq, hm⟩ := h
  exact ⟨hsp, hpc, hiq, hm⟩

theorem inv_setIq {q : List Byte} (hq : q.Nodup) : (s.setIq q).Inv := by
  obtain ⟨hsp, hpc, -, hm⟩ := h
  exact ⟨hsp, hpc, hq, hm⟩

theorem inv_store (p : Nat) (v : Byte) : (s.store p v).Inv := by
  obtain ⟨hsp, hpc, hiq, hm⟩ := h
  exact ⟨by simpa using hsp, hpc, hiq, Memory.wf_write p v hm⟩

theorem inv_push (v : Byte) : (push v s).Inv := by
  refine inv_setSp (inv_store h s.sp.toNat v) ?_
  obtain ⟨hsp, -⟩ := h
  rw [pushedSp_toNat, store_mem, Memory.write_capacity]
  omega

theorem inv_popState : (popState s).Inv := inv_setSp h (poppedSp_lt_capacity s.mem s.sp)

theorem inv_fetched (x : Byte) {p : PcWord} (hp : p.toNat ≤ 256) : (fetched s x p).Inv :=
  inv_setPc (s := s.drawMdr.latchFetch _ x) h hp

theorem inv_saveContext {rest : List Byte} (hr : rest.Nodup) : (saveContext rest s).Inv :=
  inv_push (s := (s.setIq rest).setIe false) (inv_setIq h hr) (lowByte s.pc)

/-- Every instruction keeps the invariants. -/
theorem inv_effect (i : Instr) : (effect i s).Inv := by
  cases i with
  | loadAVal v => exact inv_setReg h .A v
  | loadBVal v => exact inv_setReg h .B v
  | loadAMem addr => exact inv_setReg h .A _
  | loadBMem addr => exact inv_setReg h .B _
  | storeA addr => exact inv_store h _ _
  | storeB addr => exact inv_store h _ _
  | add => exact inv_setReg h .A _
  | jmp addr => exact inv_setPc_zext9 h addr
  | iret => exact inv_setPc_zext9 (inv_popState h) _
  | pushA => exact inv_push h _
  | pushB => exact inv_push h _
  | popA => exact inv_setReg (inv_popState h) .A _
  | popB => exact inv_setReg (inv_popState h) .B _
  | enableInterrupts | halt | noop => exact h

end Updates

/-! ### The events -/

/-- A fetch leaves PC at most at the capacity; a service takes a code off the queue. -/
theorem inv_tickWith {tab : OpcodeTable} {s t : State} (h : s.Inv) (ht : tickWith tab s = .next t) : t.Inv := by
  rcases halted_or_services_or_fetches s with hh | ⟨c, rest, hs⟩ | hs
  · rw [tickWith_halted hh] at ht
    cases ht
    exact h
  · obtain ⟨-, -, rfl⟩ := tickWith_service_next hs ht
    have hrest : rest.Nodup := by
      obtain ⟨-, -, hiq⟩ := hs
      obtain ⟨-, -, hq, -⟩ := h
      exact (List.nodup_cons.1 (hiq ▸ hq)).2
    exact inv_setPc_zext9 (inv_saveContext (s := s.drawMdr) h hrest) _
  · obtain ⟨x, -, hfit, ht⟩ := tickWith_fetch_next hs ht
    have hpc := pc_add_toNat _ _ (Nat.le_trans hfit s.mem.capacity_le)
    have hf := inv_fetched h x (hpc ▸ Nat.le_trans hfit s.mem.capacity_le)
    rcases ht with ⟨-, rfl⟩ | ⟨o, v, -, rfl⟩
    · exact hf
    · exact inv_effect hf _

/-- Settles O46: `inv_tickWith`. -/
theorem tickKeepsTheInvariants : Obligations.TickKeepsTheInvariants := fun _ _ _ => inv_tickWith

theorem inv_resetOf (last : Byte) (n : Nat) : (State.resetOf last n).Inv :=
  ⟨(State.resetOf last n).mem.last_lt_capacity, Nat.zero_le _, List.nodup_nil, resetOf_mem_wf last n⟩

/-- A RESET that is not refused leaves the reset state of a capacity (R23). -/
theorem resetEvent_next {c : Nat} {s t : State} (ht : resetEvent c s = .next t) :
    t = State.resetOf (BitVec.ofNat 8 (c - 1)) s.draws := by
  by_cases hc : 1 ≤ c ∧ c ≤ 256
  · rw [resetEvent_of_admitted s hc] at ht
    exact (Host.Outcome.next.inj ht).symm
  · simp [resetEvent_of_not_admitted s hc] at ht

theorem inv_loadEvent {s : State} (h : s.Inv) (bytes : List Byte) (base : Byte) : (loadEvent bytes base s).Inv := by
  refine inv_setPc_zext9 ?_ base
  obtain ⟨hsp, hpc, hiq, hm⟩ := h
  exact ⟨by simpa using hsp, hpc, hiq, Memory.wf_loadImage base.toNat bytes hm⟩

/-- A code is appended only where it is not pending. -/
theorem inv_irqEvent {s : State} (h : s.Inv) (c : Byte) : (irqEvent c s).Inv := by
  rw [irqEvent_eq]
  refine inv_setIq h ?_
  obtain ⟨-, -, hiq, -⟩ := h
  split
  · exact hiq
  · next hc => exact List.concat_eq_append ▸ List.Nodup.concat hc hiq

theorem inv_eventWith {tab : OpcodeTable} {e : Event} {s t : State} (h : s.Inv) (ht : eventWith tab e s = .next t) :
    t.Inv := by
  cases e with
  | reset c => exact resetEvent_next ht ▸ inv_resetOf _ _
  | load bytes base =>
    cases ht
    exact inv_loadEvent h bytes base
  | irq c =>
    cases ht
    exact inv_irqEvent h c
  | tick => exact inv_tickWith h ht

/-- Settles O47: `inv_eventWith` at each of the three events. -/
theorem hostEventsKeepTheInvariants : Obligations.HostEventsKeepTheInvariants :=
  fun _ _ h => ⟨fun _ => inv_eventWith h, fun _ _ => inv_eventWith h, fun _ => inv_eventWith h⟩

/-- What every event of a list keeps holds after a run of them. -/
theorem runEvents_keeps {tab : OpcodeTable} {P : State → Prop} {es : List Event} {s t : State}
    (hstep : ∀ e ∈ es, ∀ u v, P u → eventWith tab e u = .next v → P v) (hs : P s)
    (ht : runEvents tab es s = .next t) : P t := by
  induction es generalizing s with
  | nil =>
    cases ht
    exact hs
  | cons e es ih =>
    cases hu : eventWith tab e s with
    | next u =>
      simp only [runEvents, hu] at ht
      exact ih (fun e' he' => hstep e' (List.mem_cons_of_mem e he')) (hstep e List.mem_cons_self s u hs hu) ht
    | fault r => simp [runEvents, hu] at ht
    | refused r => simp [runEvents, hu] at ht

/-- There are 256 codes, so no more are pending where none is pending twice (R19). -/
theorem length_le_of_nodup {q : List Byte} (h : q.Nodup) : q.length ≤ 256 := by
  have hsub : q.map BitVec.toNat ⊆ List.range 256 := fun n hn => by
    obtain ⟨b, -, rfl⟩ := List.mem_map.1 hn
    exact List.mem_range.2 b.isLt
  simpa using (List.subperm_of_subset (h.map fun _ _ => BitVec.eq_of_toNat_eq) hsub).length_le

/-- Settles O45: the invariants of the reset state of any capacity. -/
theorem resetMeetsTheInvariants : Obligations.ResetMeetsTheInvariants := inv_resetOf _ _

/-- Settles O48: the invariants hold at reset and every event keeps them. -/
theorem reachableStatesMeetTheInvariants : Obligations.ReachableStatesMeetTheInvariants := by
  rintro s ⟨es, hrun⟩
  obtain ⟨hsp, hpc, hiq, hm⟩ : s.Inv := runEvents_keeps (fun _ _ _ _ => inv_eventWith) resetMeetsTheInvariants hrun
  exact ⟨⟨hsp, hpc, hiq, hm⟩, length_le_of_nodup hiq⟩

end Sys2Proof.Machine
end

section
/-! Each instruction's effect as a whole next state (spec/41_load_store.md to spec/45_interrupt_instructions.md), and
which instructions complete. -/
namespace Sys2Proof.Machine

/-- Settles O12: an immediate load is one register write. -/
theorem loadImmediateSetsItsRegister : Obligations.LoadImmediateSetsItsRegister := fun _ _ => ⟨rfl, rfl⟩

/-- Settles O13: `MemRead` at the address decides. -/
theorem loadAbsoluteReadsItsCell : Obligations.LoadAbsoluteReadsItsCell := by
  intro addr s
  exact ⟨fun h => ⟨_, s.mem.read?_of_lt h, loadAbsolute_of_lt h, loadAbsolute_of_lt h⟩,
    fun h => ⟨loadAbsolute_of_ge h, loadAbsolute_of_ge h⟩⟩

/-- Settles O14: a store is one memory write, read back at every address by `Memory.read?_write`. -/
theorem storeWritesItsCellOnly : Obligations.StoreWritesItsCellOnly := by
  intro addr s
  have written (v : Byte) := s.mem.write_capacity addr.toNat v
  exact ⟨⟨_, exec_storeA s addr, written s.a, fun p => s.mem.read?_write addr.toNat p s.a⟩,
    ⟨_, exec_storeB s addr, written s.b, fun p => s.mem.read?_write addr.toNat p s.b⟩⟩

/-- Settles O15: the sum as a bit vector, whose value is the sum modulo 256. -/
theorem addIsModulo256 : Obligations.AddIsModulo256 := by
  intro s
  refine ⟨s.a + s.b, exec_add s, ?_⟩
  have ha := s.a.isLt
  have hb := s.b.isLt
  rw [BitVec.toNat_add]
  split <;> omega

/-- Settles O16, by induction on the number of ADDs: each adds B, which it leaves alone, to the A of the one before. -/
theorem repeatedAddAddsMultiplesOfB : Obligations.RepeatedAddAddsMultiplesOfB := by
  intro n
  induction n with
  | zero => exact fun s => ⟨s.a, rfl, by have := s.a.isLt; omega⟩
  | succ n ih =>
    intro s
    obtain ⟨v, hrun, hv⟩ := ih (s.setReg .A (s.a + s.b))
    refine ⟨v, ?_, ?_⟩
    · rw [List.replicate_succ, execAll, exec_add]
      exact hrun
    · rw [hv, setReg_A_a, setReg_A_b, BitVec.toNat_add, Nat.mod_add_mod, Nat.succ_mul]
      omega

/-- Settles O17: each of the three is one update, or none. -/
theorem jmpHaltNoopEffects : Obligations.JmpHaltNoopEffects := fun _ _ => ⟨rfl, rfl, rfl⟩

/-- Settles O18: the SP of a pop and the byte it returns, by the laws of `popState` and `popValue`. -/
theorem enableAndIretEffects : Obligations.EnableAndIretEffects := by
  intro s
  exact ⟨exec_enableInterrupts s, _, _, poppedSp_toNat_capacity s.mem s.sp, read?_popped s, exec_iret s⟩

/-- Settles O19: a push is one memory write at SP, read back at every address, and the move of SP. -/
theorem pushStoresBelowTheStack : Obligations.PushStoresBelowTheStack := by
  intro s
  have written (v : Byte) := s.mem.write_capacity s.sp.toNat v
  exact ⟨_, pushedSp_toNat s.sp,
    ⟨_, exec_pushA s, written s.a, fun p => s.mem.read?_write s.sp.toNat p s.a⟩,
    ⟨_, exec_pushB s, written s.b, fun p => s.mem.read?_write s.sp.toNat p s.b⟩⟩

/-- Settles O20: the SP of a pop and the byte it returns, by the laws of `popState` and `popValue`. -/
theorem popReadsAboveTheStack : Obligations.PopReadsAboveTheStack := by
  intro s
  exact ⟨_, _, poppedSp_toNat_capacity s.mem s.sp, read?_popped s, exec_popA s, exec_popB s⟩

/-- A well-formed instruction names no address past the last cell. -/
theorem not_loadsPastTheTop_of_wf {i : Instr} {s : State} (h : i.wf s.mem.capacity = true) (addr : Byte) :
    ¬ LoadsPastTheTop i addr s := by
  rintro ⟨rfl | rfl, hc⟩ <;> exact Nat.not_lt.2 hc (of_decide_eq_true h)

/-- Settles O21: `exec_eq_effect`, whose second case no well-formed instruction meets. -/
theorem everyInstructionCompletes : Obligations.EveryInstructionCompletes := by
  intro i s
  rcases exec_eq_effect i s with he | ⟨addr, hl, he⟩
  · exact ⟨.inl ⟨_, he⟩, fun _ => ⟨_, he⟩⟩
  · refine ⟨.inr ⟨addr, ?_⟩, fun hw => absurd hl (not_loadsPastTheTop_of_wf hw addr)⟩
    obtain ⟨hi, hc⟩ := hl
    exact ⟨hi, hc, he⟩

end Sys2Proof.Machine
end

section
/-! The TICK (spec/40_execution_cycle.md): what it runs is what the decoder finds at PC; each instruction as one TICK, with
the bytes of its default encoding; and the events of a halted core, which follow a HALT. -/
namespace Sys2Proof.Machine

/-! ### What a TICK decodes -/

theorem State.code_of_lt {s : State} (h : s.pc.toNat < s.mem.capacity) :
    s.code = s.mem.cell s.pc.toNat :: s.mem.bytes.drop (s.pc.toNat + 1) := s.mem.bytes_drop_of_lt h

/-- Settles O8: in each way a fetch can go, the bytes from PC on are decoded to what the TICK does. -/
theorem stepRunsTheDecodedInstruction : Obligations.StepRunsTheDecodedInstruction := by
  rintro t s ⟨hh, hs⟩
  rcases tickWith_fetch_cases t hh hs with ⟨hge, ht⟩ | ⟨hlt, ⟨hd, ht⟩ | ⟨o, hd, ho, ht⟩ | ⟨o, hd, ho, hp, ht⟩ |
      ⟨o, hd, ho, hp, ht⟩⟩
  · have hcode : s.code = [] := s.mem.bytes_drop_of_ge hge
    rw [hcode]
    exact ht
  · rw [State.code_of_lt hlt, decodeWith_unrecognised hd]
    exact ht
  · rw [State.code_of_lt hlt, decodeWith_single hd ho]
    simp only [Instr.length, toInstr_op, Op.length, ho, decodeOpcode_some hd]
    exact ht
  · rw [State.code_of_lt hlt, s.mem.bytes_drop_of_ge (Nat.le_of_eq hp.symm), decodeWith_operand_missing hd ho]
    exact ht
  · rw [State.code_of_lt hlt, s.mem.bytes_drop_of_lt hp, decodeWith_double hd ho]
    simp only [Instr.length, toInstr_op, Op.length, ho, decodeOpcode_some hd]
    rw [ht, pc_add_two]
    rfl

/-- From its base on, an image that fits shows in memory as it was loaded. -/
theorem Memory.bytes_drop_loadImage (m : Memory) {base : Nat} (xs ys : List Byte)
    (h : base + xs.length ≤ m.capacity) : ∃ rest, (m.loadImage base (xs ++ ys)).bytes.drop base = xs ++ rest := by
  induction xs generalizing m base with
  | nil => exact ⟨_, rfl⟩
  | cons x xs ih =>
    rw [List.length_cons] at h
    obtain ⟨rest, hrest⟩ := ih (m.write base x) (base := base + 1) (by rw [write_capacity]; omega)
    refine ⟨rest, ?_⟩
    rw [bytes_drop_of_lt _ (by rw [loadImage_capacity]; omega), List.cons_append, loadImage, hrest,
      cell_loadImage_below _ _ (Nat.lt_succ_self base), cell_write_same _ _ (by omega)]
    rfl

theorem decode_of_decodeTableWord {nbits w : Nat} {i : Instr} (h : decodeTableWord nbits w = some i) :
    ∃ rest, decode (tableBytes nbits w) = .instr i rest := by
  unfold decodeTableWord at h
  split at h <;> cases h
  exact ⟨_, by assumption⟩

/-- Settles O9: the table word begins with the encoding of its instruction (`encodeInvertsDecode`), which fits where
`withFetchWord` loads it, so that the bytes from PC on begin with it too. -/
theorem fetchWordIsFetchedNext : Obligations.FetchWordIsFetchedNext := by
  intro s nbits w i hw hfit
  obtain ⟨left, hdec⟩ := decode_of_decodeTableWord hw
  have hbytes := encodeInvertsDecode _ _ _ _ hdec
  have hlen : lengthAt defaultOpcodes ((tableBytes nbits w).headD 0#8) = i.length := by
    rw [hbytes]
    exact lengthAt_recognised (decodeOpcode_value defaultOpcodes_wf i.op)
  have hpc : (s.withFetchWord nbits w).pc.toNat + (encodeWith defaultOpcodes i).length ≤ s.mem.capacity := by
    rw [encodeWith_length]
    simp only [State.withFetchWord, hlen]
    split
    · assumption
    · simpa using hfit
  refine ⟨⟨rfl, ?_⟩, ?_⟩
  · cases hie : s.ie <;> simp [State.withFetchWord, hie]
  · obtain ⟨rest, hrest⟩ := s.mem.bytes_drop_loadImage _ left hpc
    rw [← hbytes] at hrest
    have hcode : (s.withFetchWord nbits w).code = encodeWith defaultOpcodes i ++ rest := hrest
    refine ⟨rest, ?_⟩
    rw [decode, hcode]
    exact decodeWith_encodeWith defaultOpcodes_wf i rest

/-! ### The events of a halted core -/

/-- No event but RESET wakes a halted core: LOAD moves PC and writes memory, IRQ queues a code, TICK does nothing. -/
theorem eventWith_halted {tab : OpcodeTable} {e : Event} {s t : State} (hh : s.halted = true)
    (he : ∀ c, e ≠ .reset c) (ht : eventWith tab e s = .next t) :
    t = { s with pc := t.pc, mem := t.mem, iq := t.iq } ∧
      ((∀ bytes base, e ≠ .load bytes base) → t.pc = s.pc ∧ t.mem = s.mem) ∧
      ((∀ c, e ≠ .irq c) → t.iq = s.iq) := by
  cases e with
  | reset c => exact absurd rfl (he c)
  | load bytes base =>
    cases ht
    exact ⟨rfl, fun h => absurd rfl (h bytes base), fun _ => rfl⟩
  | irq c =>
    obtain rfl : irqEvent c s = t := Host.Outcome.next.inj ht
    rw [irqEvent_eq]
    exact ⟨rfl, fun _ => ⟨rfl, rfl⟩, fun h => absurd rfl (h c)⟩
  | tick =>
    obtain rfl : s = t := Host.Outcome.next.inj ((tickWith_halted hh).symm.trans ht)
    exact ⟨rfl, fun _ => ⟨rfl, rfl⟩, fun _ => rfl⟩

theorem eventWith_halted_halted {tab : OpcodeTable} {e : Event} {s t : State} (hh : s.halted = true)
    (he : ∀ c, e ≠ .reset c) (ht : eventWith tab e s = .next t) : t.halted = true := by
  obtain ⟨hframe, -, -⟩ := eventWith_halted hh he ht
  exact hframe ▸ hh

/-! ### One instruction as one TICK

In each proof the TICK is `step_formatS` or `step_formatD`, and what is left is that instruction's effect on the state
fetched, which holds by computation. -/

/-- Settles O11: the state fetched is the next state. -/
theorem unrecognisedByteOnlyAdvancesPc : Obligations.UnrecognisedByteOnlyAdvancesPc := by
  rintro s b ⟨hh, hs⟩ hb hun
  exact ⟨_, step_unrecognised hh hs hb ((decodeOpcode_default_none b).2 hun), rfl⟩

/-- Settles O22: with an operand byte `step_formatD`, without one `step_formatD_fault`. -/
theorem tickLoadImmediate : Obligations.TickLoadImmediate := by
  intro s v hs
  refine ⟨fun hx hv => ⟨_, step_formatD hs .loadAVal rfl hx hv, rfl⟩,
    fun hx hv => ⟨_, step_formatD hs .loadBVal rfl hx hv, rfl⟩, ?_⟩
  rintro (hx | hx) hv
  · exact step_formatD_fault hs .loadAVal rfl hx hv
  · exact step_formatD_fault hs .loadBVal rfl hx hv

theorem loadAbsolute_of_read {r : Reg} {addr v : Byte} {s : State} (h : s.mem.read? addr.toNat = some v) :
    loadAbsolute r addr s = .next (s.setReg r v) := by simp [loadAbsolute, h]

/-- Settles O23: after the fetch, `MemRead` at the operand decides. -/
theorem tickLoadAbsolute : Obligations.TickLoadAbsolute := by
  intro s addr hs ha
  refine ⟨fun hx v hv => ⟨_, (step_formatD hs .loadAMem rfl hx ha).trans (loadAbsolute_of_read hv), rfl⟩,
    fun hx v hv => ⟨_, (step_formatD hs .loadBMem rfl hx ha).trans (loadAbsolute_of_read hv), rfl⟩, ?_⟩
  intro hx hv
  have hge := (Memory.read?_eq_none _).1 hv
  rcases hx with hx | hx
  · exact (step_formatD hs .loadAMem rfl hx ha).trans (loadAbsolute_of_ge hge)
  · exact (step_formatD hs .loadBMem rfl hx ha).trans (loadAbsolute_of_ge hge)

/-- Settles O24: after the fetch, one memory write at the operand, read back at every address. -/
theorem tickStore : Obligations.TickStore := by
  intro s addr hs
  have written (v : Byte) := s.mem.write_capacity addr.toNat v
  have read (v : Byte) (p : Nat) := s.mem.read?_write addr.toNat p v
  refine ⟨fun hx ha => ⟨_, _, step_formatD hs .storeA rfl hx ha, rfl, written s.a, read s.a⟩,
    fun hx ha => ⟨_, _, step_formatD hs .storeB rfl hx ha, rfl, written s.b, read s.b⟩, ?_⟩
  rintro (hx | hx) ha
  · exact step_formatD_fault hs .storeA rfl hx ha
  · exact step_formatD_fault hs .storeB rfl hx ha

/-- Settles O25: the sum as a bit vector. -/
theorem tickAdd : Obligations.TickAdd := by
  intro s hs hx
  exact ⟨_, s.a + s.b, (step_formatS hs .add rfl hx).trans (exec_add _), BitVec.toNat_add _ _, rfl⟩

/-- Settles O26: JMP's next TICK is a fetch at its operand, and what follows HALT is `eventWith_halted`. -/
theorem tickControl : Obligations.TickControl := by
  intro s hs
  refine ⟨fun addr hx ha => ⟨_, step_formatD hs .jmp rfl hx ha, rfl, fun hge => ?_⟩,
    step_formatD_fault hs .jmp rfl,
    fun hx => ⟨_, step_formatS hs .halt rfl hx, step_halted rfl, fun e u he => eventWith_halted_halted rfl he, rfl⟩,
    fun hx => ⟨_, step_formatS hs .noop rfl hx, rfl⟩⟩
  obtain ⟨hh, hs⟩ := hs
  exact step_fetchOutOfRange hh hs (hge.trans_eq (zext9_toNat addr).symm)

/-- Settles O27: after the fetch, one memory write at SP, read back at every address, and the move of SP. -/
theorem tickPush : Obligations.TickPush := by
  intro s hs hsp
  have written (v : Byte) := s.mem.write_capacity s.sp.toNat v
  have read (v : Byte) := s.mem.read?_write_of_lt v hsp
  exact ⟨_, pushedSp_toNat s.sp,
    fun hx => ⟨_, _, step_formatS hs .pushA rfl hx, rfl, written s.a, read s.a⟩,
    fun hx => ⟨_, _, step_formatS hs .pushB rfl hx, rfl, written s.b, read s.b⟩⟩

/-- Settles O28: after the fetch, the SP of a pop and the byte it returns. -/
theorem tickPop : Obligations.TickPop := by
  intro s hs
  exact ⟨_, _, poppedSp_toNat_capacity s.mem s.sp, read?_popped s,
    fun hx => ⟨_, step_formatS hs .popA rfl hx, rfl⟩, fun hx => ⟨_, step_formatS hs .popB rfl hx, rfl⟩⟩

/-- Settles O29: both instructions set IE and leave IQ, so a pending code is due. -/
theorem tickInterruptControl : Obligations.TickInterruptControl := by
  intro s hs
  have due {t : State} (hh : t.halted = s.halted) (hie : t.ie = true) (hiq : t.iq = s.iq) (c : Byte)
      (rest : List Byte) (h : s.iq = c :: rest) : t.Services c rest := ⟨hh.trans hs.1, hie, hiq.trans h⟩
  exact ⟨fun hx => ⟨_, step_formatS hs .enableInterrupts rfl hx, due rfl rfl rfl, rfl⟩,
    fun hx => ⟨_, _, _, poppedSp_toNat_capacity s.mem s.sp, read?_popped s, step_formatS hs .iret rfl hx,
      due rfl rfl rfl, rfl⟩⟩

end Sys2Proof.Machine
end

section
/-! The faults of a TICK (spec/60_exceptions.md R120): when each of them arises, for a TICK that services and for one that
fetches; and how PC comes to stand past the top of memory (spec/30_encoding.md R61). -/
namespace Sys2Proof.Machine

/-- No TICK is refused: a service is not, and neither is an instruction. -/
theorem step_not_refused (s : State) (r : Refusal) : step s ≠ .refused r := by
  rcases halted_or_services_or_fetches s with hh | ⟨c, rest, hh, hie, hiq⟩ | ⟨hh, hs⟩
  · simp [step_halted hh]
  · rw [step_service hh hie hiq]
    rcases enterInterrupt_cases c rest s.drawMdr with ⟨-, he⟩ | ⟨-, -, he⟩ | ⟨-, -, he⟩ <;> simp [he]
  · rcases tickWith_fetch_cases defaultOpcodes hh hs with ⟨-, ht⟩ | ⟨-, ⟨-, ht⟩ | ⟨o, -, -, ht⟩ | ⟨o, -, -, -, ht⟩ |
        ⟨o, -, -, -, ht⟩⟩ <;> rw [step, ht]
    · simp
    · simp
    · exact exec_not_refused _ _ r
    · simp
    · exact exec_not_refused _ _ r

/-- A service faults for a PC that is no byte, and else for a vector that is no cell (R106). -/
theorem step_service_fault_iff {s : State} {c : Byte} {rest : List Byte} (hs : s.Services c rest) (f : Fault) :
    step s = .fault f ↔ (255 < s.pc.toNat ∧ f = .pcNotByte s.pc) ∨
      (s.pc.toNat ≤ 255 ∧ s.mem.capacity ≤ c.toNat ∧ f = .vectorOutOfRange c) := by
  obtain ⟨hh, hie, hiq⟩ := hs
  rw [step_service hh hie hiq]
  rcases enterInterrupt_cases c rest s.drawMdr with ⟨hpc, he⟩ | ⟨hpc, hc, he⟩ | ⟨hpc, hc, he⟩ <;>
    simp only [drawMdr_pc] at hpc he
  · simp [he, hpc, Nat.not_le.2 hpc, eq_comm]
  · simp [he, hpc, show s.mem.capacity ≤ c.toNat from hc, Nat.not_lt.2 hpc, eq_comm]
  · simp [he, hpc, show ¬ s.mem.capacity ≤ c.toNat from Nat.not_le.2 hc, Nat.not_lt.2 hpc]

theorem loadsPastTheTop_toInstr_iff (o : Op) (v addr : Byte) (s : State) :
    LoadsPastTheTop (o.toInstr v) addr s ↔
      (o = .loadAMem ∨ o = .loadBMem) ∧ v = addr ∧ s.mem.capacity ≤ addr.toNat := by
  cases o <;> simp [LoadsPastTheTop, Op.toInstr]

/-- A TICK that fetches faults at the opcode, at the operand byte, or at the cell an absolute load reads (R68, R70,
R77). -/
theorem step_fetch_fault_iff {s : State} (hs : s.Fetches) (f : Fault) :
    step s = .fault f ↔ (s.mem.capacity ≤ s.pc.toNat ∧ f = .fetchOutOfRange s.pc) ∨
      (∃ o : Op, o.hasOperand = true ∧ s.mem.read? s.pc.toNat = some (defaultOpcodes o) ∧
        s.pc.toNat + 1 = s.mem.capacity ∧ f = .operandOutOfRange (s.pc + 1#9)) ∨
      (∃ addr : Byte, (s.mem.read? s.pc.toNat = some 0x03#8 ∨ s.mem.read? s.pc.toNat = some 0x04#8) ∧
        s.mem.read? (s.pc.toNat + 1) = some addr ∧ s.mem.capacity ≤ addr.toNat ∧ f = .loadOutOfRange addr) := by
  obtain ⟨hh, hi⟩ := hs
  constructor
  · intro h
    rcases tickWith_fetch_cases defaultOpcodes hh hi with ⟨hge, ht⟩ | ⟨hlt, ⟨hd, ht⟩ | ⟨o, hd, ho, ht⟩ |
        ⟨o, hd, ho, hp, ht⟩ | ⟨o, hd, ho, hp, ht⟩⟩ <;> rw [step, ht] at h
    · cases h
      exact .inl ⟨hge, rfl⟩
    · cases h
    · obtain ⟨addr, hl, -⟩ := exec_fault_iff.1 h
      obtain ⟨rfl | rfl, -⟩ := (loadsPastTheTop_toInstr_iff ..).1 hl <;> cases ho
    · cases h
      exact .inr (.inl ⟨o, ho, by rw [s.mem.read?_of_lt hlt, decodeOpcode_some hd], hp, rfl⟩)
    · obtain ⟨addr, hl, rfl⟩ := exec_fault_iff.1 h
      obtain ⟨hop, rfl, hc⟩ := (loadsPastTheTop_toInstr_iff ..).1 hl
      have hx : s.mem.read? s.pc.toNat = some (defaultOpcodes o) := by
        rw [s.mem.read?_of_lt hlt, decodeOpcode_some hd]
      refine .inr (.inr ⟨_, ?_, s.mem.read?_of_lt hp, hc, rfl⟩)
      rcases hop with rfl | rfl
      · exact .inl hx
      · exact .inr hx
  · rintro (⟨hge, rfl⟩ | ⟨o, ho, hx, hp, rfl⟩ | ⟨addr, hx | hx, hv, hc, rfl⟩)
    · exact step_fetchOutOfRange hh hi hge
    · exact step_formatD_fault ⟨hh, hi⟩ o ho hx (s.mem.read?_of_ge (Nat.le_of_eq hp.symm))
    · exact (step_formatD ⟨hh, hi⟩ .loadAMem rfl hx hv).trans (loadAbsolute_of_ge hc)
    · exact (step_formatD ⟨hh, hi⟩ .loadBMem rfl hx hv).trans (loadAbsolute_of_ge hc)

/-- Settles O30: a halted TICK does not fault, and for the other two kinds the table is the two lemmas above. -/
theorem tickFaultsExactlyWhenStated : Obligations.TickFaultsExactlyWhenStated := by
  intro s
  refine ⟨step_not_refused s, fun f => ?_⟩
  rcases halted_or_services_or_fetches s with hh | ⟨c, rest, hs⟩ | hs
  · simp [step_halted hh, hh]
  · rw [step_service_fault_iff hs]
    obtain ⟨hh, hie, hiq⟩ := hs
    simp [hh, hie, hiq]
  · rw [step_fetch_fault_iff hs]
    obtain ⟨hh, hi⟩ := hs
    have hnone : ¬ (s.ie = true ∧ s.iq ≠ []) := by rcases hi with hi | hi <;> simp [hi]
    constructor
    · exact fun h => ⟨hh, .inr ⟨hi, h⟩⟩
    · rintro ⟨-, ⟨c, rest, hie, hiq, -⟩ | ⟨-, h⟩⟩
      · exact absurd ⟨hie, by simp [hiq]⟩ hnone
      · exact h

/-- Where every byte is an address of a cell, a TICK with PC at one of them faults at the missing operand byte only. -/
theorem step_fault_of_full {s : State} {f : Fault} (hcap : s.mem.capacity = 256) (hpc : s.pc.toNat ≤ 255)
    (h : step s = .fault f) : s.pc.toNat = 255 ∧ s.Fetches ∧ ∃ o : Op, o.hasOperand = true ∧
      s.mem.read? s.pc.toNat = some (defaultOpcodes o) ∧ f = .operandOutOfRange (s.pc + 1#9) := by
  have hbyte (v : Byte) : ¬ s.mem.capacity ≤ v.toNat := by rw [hcap]; exact Nat.not_le.2 v.isLt
  rcases halted_or_services_or_fetches s with hh | ⟨c, rest, hs⟩ | hs
  · simp [step_halted hh] at h
  · rcases (step_service_fault_iff hs f).1 h with ⟨hlt, -⟩ | ⟨-, hc, -⟩
    · omega
    · exact absurd hc (hbyte c)
  · rcases (step_fetch_fault_iff hs f).1 h with ⟨hge, -⟩ | ⟨o, ho, hx, hp, hf⟩ | ⟨addr, -, -, hc, -⟩
    · omega
    · exact ⟨by omega, hs, o, ho, hx, hf⟩
    · exact absurd hc (hbyte addr)

theorem step_next_or_fault (s : State) : (∃ t, step s = .next t) ∨ ∃ f, step s = .fault f := by
  cases h : step s with
  | next t => exact .inl ⟨t, rfl⟩
  | fault f => exact .inr ⟨f, rfl⟩
  | refused r => exact absurd h (step_not_refused s r)

/-- Settles O31: a TICK that answers no next state faults, and then `step_fault_of_full` says where and how. -/
theorem noFaultBelowTheTopOfMemory : Obligations.NoFaultBelowTheTopOfMemory := by
  intro s hcap
  rcases step_next_or_fault s with ht | ⟨f, hf⟩
  · exact ⟨fun _ => ht, fun _ => .inl ht⟩
  · refine ⟨fun hpc => ?_, fun hpc => .inr ?_⟩
    · obtain ⟨hpc', -⟩ := step_fault_of_full hcap (by omega) hf
      omega
    · obtain ⟨-, hs, o, ho, hx, rfl⟩ := step_fault_of_full hcap (by omega) hf
      have hpc' : s.pc = 255#9 := BitVec.eq_of_toNat_eq hpc
      rw [hpc'] at hx hf
      exact ⟨hs, o, ho, hx, hf⟩

/-- A fetch that answers a next state has moved PC past what it fetched, or it was JMP or IRET, which leave PC at a
byte. -/
theorem pc_of_fetch {s t : State} (hs : s.Fetches) (h : step s = .next t) :
    ∃ x, s.mem.read? s.pc.toNat = some x ∧ s.pc.toNat + lengthAt defaultOpcodes x ≤ 256 ∧
      (t.pc.toNat ≤ 255 ∨ (t.pc.toNat = s.pc.toNat + lengthAt defaultOpcodes x ∧ x ≠ 0x08#8 ∧ x ≠ 0x0A#8)) := by
  obtain ⟨x, hx, hfit, ht⟩ := tickWith_fetch_next hs h
  have hfit := Nat.le_trans hfit s.mem.capacity_le
  refine ⟨x, hx, hfit, ?_⟩
  rw [← pc_add_toNat _ _ hfit]
  rcases ht with ⟨hd, rfl⟩ | ⟨o, v, hd, rfl⟩
  · have hun := decodeOpcode_none.1 hd
    exact .inr ⟨rfl, (hun .jmp).symm, (hun .iret).symm⟩
  · by_cases hj : o = .jmp ∨ o = .iret
    · exact .inl (effect_pc_of_jump _ (by rwa [toInstr_op]))
    · have hval : defaultOpcodes o = x := decodeOpcode_some hd
      refine .inr ⟨by rw [effect_pc _ (by rwa [toInstr_op]), fetched_pc], ?_, ?_⟩ <;> rintro rfl
      · exact hj (.inl (defaultOpcodes_wf.inj hval))
      · exact hj (.inr (defaultOpcodes_wf.inj hval))

/-- Settles O32: a service leaves PC at the byte it read, and for a fetch it is `pc_of_fetch`. -/
theorem pcPassesTheTopByIncrementOnly : Obligations.PcPassesTheTopByIncrementOnly := by
  intro s t hh h htop
  rcases halted_or_services_or_fetches s with hh' | ⟨c, rest, hs⟩ | hs
  · simp [hh] at hh'
  · obtain ⟨-, -, rfl⟩ := tickWith_service_next hs h
    have := (vectorRead c s).isLt
    rw [setPc_pc, zext9_toNat] at htop
    omega
  · obtain ⟨x, hx, hfit, hle | ⟨hpc, hjmp, hiret⟩⟩ := pc_of_fetch hs h
    · omega
    · exact ⟨by omega, hs, x, hx, by omega, hjmp, hiret⟩

end Sys2Proof.Machine
end

section
/-! Interrupts (spec/60_exceptions.md R103 to R112): what a request does, how service enters a handler, and how IRET takes
the interrupted program up again. -/
namespace Sys2Proof.Machine

theorem irqEvent_of_mem {c : Byte} {s : State} (h : c ∈ s.iq) : irqEvent c s = s := by simp [irqEvent, h]

theorem irqEvent_of_not_mem {c : Byte} {s : State} (h : c ∉ s.iq) : irqEvent c s = s.setIq (s.iq ++ [c]) := by
  simp [irqEvent, h]

/-- Settles O33: a request to a state where its code is pending changes nothing, and after a request it is pending. -/
theorem requestsQueueAndCoalesce : Obligations.RequestsQueueAndCoalesce := by
  intro c s
  by_cases hc : c ∈ s.iq
  · have hreq : event (.irq c) s = .next s := congrArg Host.Outcome.next (irqEvent_of_mem hc)
    exact ⟨s, hreq, rfl, fun _ => rfl, fun h => absurd hc h, hreq⟩
  · have hpending : c ∈ (s.setIq (s.iq ++ [c])).iq := List.mem_append_right _ List.mem_cons_self
    exact ⟨_, congrArg Host.Outcome.next (irqEvent_of_not_mem hc), rfl, fun h => absurd h hc, fun _ => rfl,
      congrArg Host.Outcome.next (irqEvent_of_mem hpending)⟩

/-- The vector service reads is what the cell of the code holds after the push. -/
theorem read?_vector {c : Byte} {s : State} (hc : c.toNat < s.mem.capacity) :
    (s.mem.write s.sp.toNat (lowByte s.pc)).read? c.toNat = some (vectorRead c s) :=
  Memory.read?_of_lt _ (by rwa [Memory.write_capacity])

/-- Settles O34: `step_enters`, its memory read back at every address. -/
theorem serviceEntersTheHandler : Obligations.ServiceEntersTheHandler := by
  intro s c rest hs hsp hpc hc
  exact ⟨_, _, _, _, step_enters hs hpc hc, pushedSp_toNat s.sp, s.mem.write_capacity _ _,
    s.mem.read?_write_of_lt _ hsp, read?_vector hc, rfl⟩

/-- Settles O35: after the request its code is the only one pending, and the next TICK enters its handler; only a push onto
the vector cell changes what service reads there. -/
theorem requestIsServicedByTheNextTick : Obligations.RequestIsServicedByTheNextTick := by
  intro s c hh hie hiq hpc hc
  have hs : (s.setIq [c]).Services c [] := ⟨hh, hie, rfl⟩
  refine ⟨s.setIq [c], _, ?_, step_enters hs hpc hc, rfl, rfl, _, read?_vector (s := s) hc, rfl, fun hne => ?_⟩
  · rw [event, eventWith, irqEvent_of_not_mem (by simp [hiq]), hiq]
    rfl
  · rw [← read?_vector (s := s) hc, s.mem.read?_write_other _ hne]

theorem sp_le_last {s : State} (h : s.sp.toNat < s.mem.capacity) : s.sp.toNat ≤ s.mem.last.toNat :=
  Nat.le_of_lt_succ h

/-- Settles O36: the pop of IRET moves SP back over the cell service pushed PC into, and reads it. -/
theorem iretResumesTheInterruptedProgram : Obligations.IretResumesTheInterruptedProgram := by
  intro s t h c rest hs hsp h0 hstep hhsp hhcap hhread
  obtain ⟨hpc, -, rfl⟩ := tickWith_service_next hs hstep
  have hlast : h.mem.last = s.mem.last := Memory.last_eq_of_capacity (hhcap.trans (s.mem.write_capacity _ _))
  have hpop : poppedSp h.mem.last h.sp = s.sp := by
    rw [hlast, hhsp]
    exact poppedSp_pushedSp _ _ h0 (sp_le_last hsp)
  have hsaved : h.mem.read? s.sp.toNat = some (lowByte s.pc) :=
    hhread.trans (s.mem.read?_write_same (lowByte s.pc) hsp)
  have hvalue : popValue h = lowByte s.pc := by
    have hread := read?_popped h
    rw [popState_sp, hpop, hsaved] at hread
    exact (Option.some.inj hread).symm
  refine ⟨_, exec_iret h, ?_, hpop, returnFromInterrupt_ie h, returnFromInterrupt_a h, returnFromInterrupt_b h,
    returnFromInterrupt_mem h⟩
  rw [returnFromInterrupt_pc, hvalue, zext9_lowByte _ hpc]

/-- What a service leaves alone, and the PC it saved at the SP it found. -/
theorem step_service_frame {s : State} {c : Byte} {rest : List Byte} (hs : s.Services c rest) (hpc : s.pc.toNat ≤ 255)
    (hc : c.toNat < s.mem.capacity) (hsp : s.sp.toNat < s.mem.capacity) :
    ∃ u, step s = .next u ∧ u.iq = rest ∧ u.ie = false ∧ u.ir = s.ir ∧ u.a = s.a ∧ u.b = s.b ∧
      u.mem.read? s.sp.toNat = some (lowByte s.pc) :=
  ⟨_, step_enters hs hpc hc, rfl, rfl, rfl, by simp, by simp, s.mem.read?_write_same _ hsp⟩

/-- Settles O37: IRET leaves IE set and PC a byte, so the next TICK is a service, which pushes that PC at the SP the pop
left. The state between the two TICKs is kept behind a name, so that the service is compared with it field by field. -/
theorem backToBackServiceAfterIret : Obligations.BackToBackServiceAfterIret := by
  rintro s c rest ⟨hh, hi⟩ hiq hx hc
  obtain ⟨t, ht⟩ : ∃ t, t = returnFromInterrupt (fetched s 0x0A#8 (s.pc + 1#9)) := ⟨_, rfl⟩
  have hstep : step s = .next t := ht ▸ step_formatS ⟨hh, hi⟩ .iret rfl hx
  have hs : t.Services c rest := ⟨by simp [ht, hh], by simp [ht], by simp [ht, hiq]⟩
  have hpc : t.pc.toNat ≤ 255 := by
    rw [ht, returnFromInterrupt_pc, zext9_toNat]
    exact Nat.le_of_lt_succ (BitVec.isLt _)
  have hsp : t.sp.toNat < t.mem.capacity := by
    rw [ht, returnFromInterrupt_sp, returnFromInterrupt_mem]
    exact poppedSp_lt_capacity _ _
  obtain ⟨u, hu, huiq, huie, huir, hua, hub, hsaved⟩ := step_service_frame hs hpc (by simpa [ht] using hc) hsp
  exact ⟨t, u, hstep, hu, huiq, huie, by simp [huir, ht], by simp [hua, ht], by simp [hub, ht], hpc, hsaved⟩

end Sys2Proof.Machine
end

section
/-! The stack (spec/20_memory.md R40 to R42, spec/44_stack.md R94): a push and a pop undo each other away from the bounds,
to any depth there is room for, and saturate at them. -/
namespace Sys2Proof.Machine

/-- Away from the bounds a pop after a push leaves the store of the push only. -/
theorem popState_push (v : Byte) {s : State} (h0 : 1 ≤ s.sp.toNat) (h : s.sp.toNat < s.mem.capacity) :
    popState (push v s) = s.store s.sp.toNat v := by
  rw [popState, push_mem, Memory.write_last, push_sp, poppedSp_pushedSp _ _ h0 (sp_le_last h)]
  rfl

/-- Settles O38: `popState_push`, and the byte popped is the one pushed. -/
theorem pushThenPopRestores : Obligations.PushThenPopRestores := by
  intro s h0 hsp
  have hstate (v : Byte) := popState_push v h0 hsp
  have hvalue (v : Byte) := popValue_push v s h0 (sp_le_last hsp)
  refine ⟨⟨_, s.store s.sp.toNat s.a, exec_pushA s, ?_, rfl, s.mem.read?_write_of_lt s.a hsp⟩,
    ⟨_, s.store s.sp.toNat s.b, exec_pushB s, ?_, rfl, s.mem.read?_write_of_lt s.b hsp⟩⟩
  · rw [exec_popA, hstate, hvalue]
    rfl
  · rw [exec_popB, hstate, hvalue]
    rfl

/-- Settles O41: the byte IRET pops into PC is the one pushed. -/
theorem pushThenIretIsAComputedJump : Obligations.PushThenIretIsAComputedJump := by
  intro s h0 hsp
  refine ⟨_, _, exec_pushA s, exec_iret _, ?_, returnFromInterrupt_ie _, ?_, by simp, by simp⟩
  · rw [returnFromInterrupt_pc, popValue_push _ _ h0 (sp_le_last hsp)]
    rfl
  · rw [returnFromInterrupt_sp, ← popState_sp, popState_push _ h0 hsp, store_sp]

/-- Settles O39: the moves of SP are saturating subtraction and a minimum, and a pop reads the cell they lead to. -/
theorem stackSaturatesAtItsBounds : Obligations.StackSaturatesAtItsBounds := by
  intro s
  constructor
  · intro h0 hcap
    have hpushed : (push s.a s).sp = 0#8 := by
      rw [push_sp, h0]
      rfl
    have hpopped : (popState (push s.a s)).sp = 1#8 := by
      apply BitVec.eq_of_toNat_eq
      rw [popState_sp, poppedSp_toNat_capacity, hpushed, push_mem, Memory.write_capacity]
      simp
      omega
    have hread := read?_popped (push s.a s)
    rw [hpopped, push_mem, h0, Memory.read?_write_other _ _ (by decide)] at hread
    refine ⟨_, _, exec_pushA s, hpushed, ?_, exec_popB _, ?_, hread⟩
    · rw [push_mem, h0]
      exact s.mem.read?_write_same s.a s.mem.capacity_pos
    · rw [setReg_sp, hpopped]
  · intro hsp
    have hpopped : (popState s).sp = s.sp := by
      apply BitVec.eq_of_toNat_eq
      rw [popState_sp, poppedSp_toNat_capacity]
      omega
    refine ⟨_, exec_popA s, ?_, ?_⟩
    · rw [setReg_sp, hpopped]
    · rw [setReg_A_a, ← hsp, ← read?_popped, hpopped]

/-! ### Any depth -/

theorem pushAll_cons (v : Byte) (vs : List Byte) (s : State) : pushAll (v :: vs) s = pushAll vs (push v s) := rfl

@[simp] theorem pushAll_last (vs : List Byte) (s : State) : (pushAll vs s).mem.last = s.mem.last := by
  induction vs generalizing s with
  | nil => rfl
  | cons v vs ih => rw [pushAll_cons, ih, push_mem, Memory.write_last]

@[simp] theorem popAll_mem (k : Nat) (s : State) : (popAll k s).2.mem = s.mem := by
  induction k generalizing s with
  | zero => rfl
  | succ k ih => exact ih (popState s)

/-- The last of the bytes popped is the one a pop returns after all the others. -/
theorem popAll_succ (k : Nat) (s : State) :
    popAll (k + 1) s = ((popAll k s).1 ++ [popValue (popAll k s).2], popState (popAll k s).2) := by
  induction k generalizing s with
  | zero => rfl
  | succ k ih =>
    rw [popAll, ih]
    rfl

/-- Settles O40, by induction on the bytes: the later ones are pushed below the first and popped before it, which leaves
SP where the first push left it, and they do not touch its cell. -/
theorem stackIsLastInFirstOut : Obligations.StackIsLastInFirstOut := by
  intro vs
  induction vs with
  | nil => exact fun s _ _ => ⟨rfl, rfl, fun _ _ => rfl⟩
  | cons v vs ih =>
    intro s hroom hsp
    have h0 : 1 ≤ s.sp.toNat := Nat.le_trans (Nat.succ_pos _) hroom
    have hpushed : (push v s).sp.toNat = s.sp.toNat - 1 := pushedSp_toNat s.sp
    rw [List.length_cons] at hroom
    obtain ⟨hbytes, hback, habove⟩ := ih (push v s) (by omega) (by rw [push_mem, Memory.write_capacity]; omega)
    rw [List.length_cons, pushAll_cons, popAll_succ]
    have hpop : poppedSp (popAll vs.length (pushAll vs (push v s))).2.mem.last
        (popAll vs.length (pushAll vs (push v s))).2.sp = s.sp := by
      rw [hback, popAll_mem, pushAll_last, push_mem, Memory.write_last, push_sp]
      exact poppedSp_pushedSp _ _ h0 (sp_le_last hsp)
    have hvalue : popValue (popAll vs.length (pushAll vs (push v s))).2 = v := by
      have hread := read?_popped (popAll vs.length (pushAll vs (push v s))).2
      rw [popState_sp, hpop, popAll_mem, habove _ (by omega), push_mem, s.mem.read?_write_same v hsp] at hread
      exact (Option.some.inj hread).symm
    refine ⟨?_, hpop, fun p hp => ?_⟩
    · simp only [hbytes, hvalue, List.reverse_cons]
    · rw [habove p (by omega), push_mem, s.mem.read?_write_other v (by omega)]

end Sys2Proof.Machine
end

section
/-! Memory and what the host does to the machine (spec/20_memory.md R33, R46, spec/80_host_interface.md R146, R147). -/
namespace Sys2Proof.Machine

/-- An image, read back at every address: the bytes loaded, those past the last cell dropped (R33). -/
theorem Memory.read?_loadImage (m : Memory) (base : Nat) (bytes : List Byte) (p : Nat) :
    (m.loadImage base bytes).read? p =
      if base ≤ p ∧ p < base + bytes.length ∧ p < m.capacity then bytes[p - base]? else m.read? p := by
  induction bytes generalizing m base with
  | nil => rw [if_neg (by simp; omega)]; rfl
  | cons v rest ih =>
    rw [loadImage, ih, write_capacity, read?_write, List.length_cons]
    rcases Nat.lt_trichotomy p base with h | rfl | h
    · rw [if_neg (by omega), if_neg (by omega), if_neg (by omega)]
    · rw [if_neg (by omega), Nat.sub_self, List.getElem?_cons_zero]
      simp
    · obtain ⟨d, rfl⟩ : ∃ d, p = base + 1 + d := ⟨p - (base + 1), by omega⟩
      rw [if_neg (show ¬ (base + 1 + d = base ∧ _) by omega), show base + 1 + d - base = d + 1 by omega,
        List.getElem?_cons_succ, Nat.add_sub_cancel_left]
      exact if_congr (by omega) rfl rfl

/-- Settles O42: LOAD is one image and a move of PC. -/
theorem loadWritesTheImageAndMovesPc : Obligations.LoadWritesTheImageAndMovesPc := by
  intro bytes base s
  exact ⟨_, s.mem.loadImage base.toNat bytes, rfl, rfl, s.mem.loadImage_capacity _ _, s.mem.read?_loadImage _ _⟩

/-- IR and MAR after a TICK that fetched: the byte at PC, and the value PC had (R68). -/
theorem latches_of_fetch {s t : State} (hs : s.Fetches) (h : step s = .next t) :
    s.mem.read? s.pc.toNat = some t.ir ∧ t.mar = lowByte s.pc := by
  obtain ⟨x, hx, -, ⟨-, rfl⟩ | ⟨o, v, -, rfl⟩⟩ := tickWith_fetch_next hs h
  · exact ⟨hx, rfl⟩
  · rw [effect_ir, effect_mar]
    exact ⟨hx, rfl⟩

/-- Settles O43: in each of the five ways the byte stands in its cell afterwards, and the fetch reads that cell. -/
theorem storeIsSeenByTheNextFetch : Obligations.StoreIsSeenByTheNextFetch := by
  intro s t u addr v hcell hstored hfetch hstep
  have hread : t.mem.read? addr.toNat = some v := by
    rcases hstored with ⟨h, rfl⟩ | ⟨h, rfl⟩ | ⟨h, rfl, rfl⟩ | ⟨h, rfl, rfl⟩ | ⟨⟨c, rest, hs⟩, h, rfl, rfl⟩
    · obtain rfl := eq_effect_of_exec h
      exact s.mem.read?_write_same s.a hcell
    · obtain rfl := eq_effect_of_exec h
      exact s.mem.read?_write_same s.b hcell
    · obtain rfl := eq_effect_of_exec h
      exact s.mem.read?_write_same s.a hcell
    · obtain rfl := eq_effect_of_exec h
      exact s.mem.read?_write_same s.b hcell
    · obtain ⟨-, -, rfl⟩ := tickWith_service_next hs h
      exact s.mem.read?_write_same (lowByte s.pc) hcell
  obtain ⟨hir, hmar⟩ := latches_of_fetch (s := t.setPc (zext9 addr)) hfetch hstep
  rw [setPc_mem, setPc_pc, zext9_toNat, hread] at hir
  exact ⟨(Option.some.inj hir).symm, hmar.trans (lowByte_zext9 addr)⟩

/-- After RESET every cell holds its reset contents (R127). -/
theorem read?_resetOf {last : Byte} {n p : Nat} (h : p < (State.resetOf last n).mem.capacity) :
    (State.resetOf last n).mem.read? p = some (Config.memReset p) := Memory.read?_of_lt _ h

/-- Settles O44: each value is one of `State.resetOf`. -/
theorem resetLeavesTheStatedValues : Obligations.ResetLeavesTheStatedValues := by
  refine ⟨⟨rfl, rfl, rfl, rfl, rfl, rfl, rfl, rfl, rfl, rfl, rfl, fun p hp => read?_resetOf hp⟩, fun c s => ⟨?_, ?_⟩⟩
  · intro hc
    have hcap := resetOf_capacity hc s.draws
    exact ⟨_, resetEvent_of_admitted s hc, rfl, rfl, rfl, rfl, rfl, rfl, congrArg (· - 1) hcap, rfl, rfl, rfl, hcap,
      fun p hp => read?_resetOf (hcap.symm ▸ hp)⟩
  · exact resetEvent_of_not_admitted s

end Sys2Proof.Machine
end

section
/-! What changes what (spec/10_state.md R12 to R19): the frame of every instruction, who reads and writes A and B, and the
rules about IE, HALTED, IQ and the latches, over every event. -/
namespace Sys2Proof.Machine

/-! ### The frame of every instruction -/

section Forms

variable (i : Instr)

theorem writesA_iff : (i.op = .loadAVal ∨ i.op = .loadAMem ∨ i.op = .add ∨ i.op = .popA) ↔
    (∃ v, i = .loadAVal v) ∨ (∃ addr, i = .loadAMem addr) ∨ i = .add ∨ i = .popA := by
  cases i <;> simp [Instr.op]

theorem writesB_iff : (i.op = .loadBVal ∨ i.op = .loadBMem ∨ i.op = .popB) ↔
    (∃ v, i = .loadBVal v) ∨ (∃ addr, i = .loadBMem addr) ∨ i = .popB := by
  cases i <;> simp [Instr.op]

theorem jumps_iff : (i.op = .jmp ∨ i.op = .iret) ↔ (∃ addr, i = .jmp addr) ∨ i = .iret := by
  cases i <;> simp [Instr.op]

theorem setsIe_iff : (i.op = .enableInterrupts ∨ i.op = .iret) ↔ i = .enableInterrupts ∨ i = .iret := by
  cases i <;> simp [Instr.op]

theorem halts_iff : i.op = .halt ↔ i = .halt := by
  cases i <;> simp [Instr.op]

end Forms

theorem effect_ie_of_ne {i : Instr} {s : State} (h : (effect i s).ie ≠ s.ie) :
    (effect i s).ie = true ∧ (i.op = .enableInterrupts ∨ i.op = .iret) := by
  rw [effect_ie] at h ⊢
  by_cases hi : i.op = .enableInterrupts ∨ i.op = .iret
  · exact ⟨if_pos hi, hi⟩
  · exact absurd (if_neg hi) h

theorem effect_halted_of_ne {i : Instr} {s : State} (h : (effect i s).halted ≠ s.halted) :
    (effect i s).halted = true ∧ i.op = .halt := by
  rw [effect_halted] at h ⊢
  by_cases hi : i.op = .halt
  · exact ⟨if_pos hi, hi⟩
  · exact absurd (if_neg hi) h

/-- Settles O49: the laws of `effect`, field by field. -/
theorem instructionsChangeOnlyWhatTheyName : Obligations.InstructionsChangeOnlyWhatTheyName := by
  intro i s t h
  obtain rfl := eq_effect_of_exec h
  refine ⟨effect_ir i s, effect_mar i s, effect_mdr i s, effect_draws i s, effect_iq i s, effect_capacity i s,
    fun hne => (writesA_iff i).1 (by_contra fun hi => hne (effect_a s hi)),
    fun hne => (writesB_iff i).1 (by_contra fun hi => hne (effect_b s hi)),
    fun hne => (jumps_iff i).1 (by_contra fun hi => hne (effect_pc s hi)),
    fun hne => by_contra fun hi => hne (effect_sp s hi),
    fun hne => (effect_ie_of_ne hne).imp_right (setsIe_iff i).1,
    fun hne => (effect_halted_of_ne hne).imp_right (halts_iff i).1, ?_, ?_, effect_mem s⟩
  · rintro addr (rfl | rfl) p hp
    · exact s.mem.read?_write_other s.a hp
    · exact s.mem.read?_write_other s.b hp
  · rintro (rfl | rfl) p hp
    · exact s.mem.read?_write_other s.a hp
    · exact s.mem.read?_write_other s.b hp

/-! ### Who reads A and B -/

/-- An absolute load does the same to a state in which fields it does not read or write have changed. -/
theorem loadAbsolute_mapNext {r : Reg} {addr : Byte} {s s' : State} (f : State → State) (hm : s'.mem = s.mem)
    (hset : ∀ v, s'.setReg r v = f (s.setReg r v)) : loadAbsolute r addr s' = mapNext f (loadAbsolute r addr s) := by
  rw [loadAbsolute, loadAbsolute, hm]
  cases s.mem.read? addr.toNat with
  | none => rfl
  | some v => exact congrArg Host.Outcome.next (hset v)

theorem mapNext_id {α : Type} (o : Host.Outcome α Fault Refusal) : mapNext id o = o := by cases o <;> rfl

/-- STORE_A, ADD and PUSH_A apart, an instruction does the same whatever A holds: a load asks memory, and for every other
form both sides compute to one state. -/
theorem exec_of_a {i : Instr} (s : State) (x : Byte) (hstore : i.op ≠ .storeA) (hadd : i.op ≠ .add)
    (hpush : i.op ≠ .pushA) :
    exec i { s with a := x } = if i.op = .loadAVal ∨ i.op = .loadAMem ∨ i.op = .popA then exec i s
      else mapNext (fun t => { t with a := x }) (exec i s) := by
  cases i
  case storeA => exact absurd rfl hstore
  case add => exact absurd rfl hadd
  case pushA => exact absurd rfl hpush
  case loadAMem addr => exact (loadAbsolute_mapNext id rfl fun _ => rfl).trans (mapNext_id _)
  case loadBMem addr => exact loadAbsolute_mapNext (fun t => { t with a := x }) rfl fun _ => rfl
  all_goals rfl

/-- STORE_B, ADD and PUSH_B apart, an instruction does the same whatever B holds, as in `exec_of_a`. -/
theorem exec_of_b {i : Instr} (s : State) (x : Byte) (hstore : i.op ≠ .storeB) (hadd : i.op ≠ .add)
    (hpush : i.op ≠ .pushB) :
    exec i { s with b := x } = if i.op = .loadBVal ∨ i.op = .loadBMem ∨ i.op = .popB then exec i s
      else mapNext (fun t => { t with b := x }) (exec i s) := by
  cases i
  case storeB => exact absurd rfl hstore
  case add => exact absurd rfl hadd
  case pushB => exact absurd rfl hpush
  case loadBMem addr => exact (loadAbsolute_mapNext id rfl fun _ => rfl).trans (mapNext_id _)
  case loadAMem addr => exact loadAbsolute_mapNext (fun t => { t with b := x }) rfl fun _ => rfl
  all_goals rfl

/-- Settles O50: the frame of `effect`, `exec_of_a` and `exec_of_b`, and for the events the state each one leaves. -/
theorem registerAccessMatrix : Obligations.RegisterAccessMatrix := by
  refine ⟨fun i s t h => ?_, fun i s x => exec_of_a s x, fun i s x => exec_of_b s x, ?_, ?_⟩
  · obtain rfl := eq_effect_of_exec h
    exact ⟨fun hne => by_contra fun hi => hne (effect_a s hi), fun hne => by_contra fun hi => hne (effect_b s hi)⟩
  · rintro s t (⟨c, rest, hs⟩ | hh) h
    · obtain ⟨-, -, rfl⟩ := tickWith_service_next hs h
      exact ⟨rfl, rfl⟩
    · obtain rfl := Host.Outcome.next.inj ((step_halted hh).symm.trans h)
      exact ⟨rfl, rfl⟩
  · rintro e s t (⟨bytes, base, rfl⟩ | ⟨c, rfl⟩) h
    · obtain rfl := Host.Outcome.next.inj h
      exact ⟨rfl, rfl⟩
    · obtain rfl := Host.Outcome.next.inj h
      rw [irqEvent_eq]
      exact ⟨rfl, rfl⟩

/-! ### What an event leaves -/

/-- The ways an event can answer a next state, and that state: one for each of RESET, LOAD and IRQ, and four for TICK. -/
inductive EventLeaves (s : State) : Event → State → Prop
  | reset (c : Nat) (last : Byte) (n : Nat) : EventLeaves s (.reset c) (State.resetOf last n)
  | load (bytes : List Byte) (base : Byte) : EventLeaves s (.load bytes base) (loadEvent bytes base s)
  | irq (c : Byte) : EventLeaves s (.irq c) (irqEvent c s)
  | halted (hh : s.halted = true) : EventLeaves s .tick s
  | service (c : Byte) (rest : List Byte) (hs : s.Services c rest) :
      EventLeaves s .tick ((saveContext rest s.drawMdr).setPc (zext9 (vectorRead c s)))
  | unrecognised (x : Byte) (p : PcWord) (hs : s.Fetches) (hx : s.mem.read? s.pc.toNat = some x) :
      EventLeaves s .tick (fetched s x p)
  | instr (o : Op) (v : Byte) (p : PcWord) (hs : s.Fetches)
      (hx : s.mem.read? s.pc.toNat = some (defaultOpcodes o)) :
      EventLeaves s .tick (effect (o.toInstr v) (fetched s (defaultOpcodes o) p))

theorem eventLeaves_of_next {e : Event} {s t : State} (h : event e s = .next t) : EventLeaves s e t := by
  cases e with
  | reset c => exact resetEvent_next h ▸ .reset c _ _
  | load bytes base => exact Host.Outcome.next.inj h ▸ .load bytes base
  | irq c => exact Host.Outcome.next.inj h ▸ .irq c
  | tick =>
    rcases halted_or_services_or_fetches s with hh | ⟨c, rest, hs⟩ | hs
    · exact Host.Outcome.next.inj ((step_halted hh).symm.trans h) ▸ .halted hh
    · obtain ⟨-, -, rfl⟩ := tickWith_service_next hs h
      exact .service c rest hs
    · obtain ⟨x, hx, -, ⟨-, rfl⟩ | ⟨o, v, hd, rfl⟩⟩ := tickWith_fetch_next hs h
      · exact .unrecognised x _ hs hx
      · obtain rfl := decodeOpcode_some hd
        exact .instr o v _ hs hx

/-- Settles O51: of what an event leaves, only a RESET, a service and an instruction can differ in IE. -/
theorem interruptEnableChangesInThreeWays : Obligations.InterruptEnableChangesInThreeWays := by
  intro e s t h hne
  cases eventLeaves_of_next h with
  | reset c => exact .inr (.inr ⟨rfl, c, rfl⟩)
  | load | halted | unrecognised => exact absurd rfl hne
  | irq c => exact absurd (by rw [irqEvent_eq]; rfl) hne
  | service c rest hs => exact .inr (.inl ⟨rfl, rfl, c, hs⟩)
  | instr o v p hs hx =>
    obtain ⟨hie, hop⟩ := effect_ie_of_ne hne
    rw [toInstr_op] at hop
    refine .inl ⟨rfl, hs, hie, ?_⟩
    rcases hop with rfl | rfl
    · exact .inl hx
    · exact .inr hx

/-- Settles O52: of what an event leaves, only a RESET and an instruction can differ in HALTED. -/
theorem haltedIsSetByHaltOnly : Obligations.HaltedIsSetByHaltOnly := by
  refine ⟨rfl, exec_halt, fun _ => tickWith_halted, fun c s hc => ⟨_, resetEvent_of_admitted s hc, rfl⟩, ?_⟩
  intro e s t h hne
  cases eventLeaves_of_next h with
  | reset c => exact .inr ⟨rfl, c, rfl⟩
  | load | halted | service | unrecognised => exact absurd rfl hne
  | irq c => exact absurd (by rw [irqEvent_eq]; rfl) hne
  | instr o v p hs hx =>
    obtain ⟨hhalted, hop⟩ := effect_halted_of_ne hne
    obtain rfl := (toInstr_op o v).symm.trans hop
    exact .inl ⟨rfl, hs, hhalted, hx⟩

/-- What no run of the events `es` changes of a halted core (R86, R153). -/
def HaltedFrame (es : List Event) (s t : State) : Prop :=
  t = { s with pc := t.pc, mem := t.mem, iq := t.iq } ∧
    ((∀ bytes base, Event.load bytes base ∉ es) → t.pc = s.pc ∧ t.mem = s.mem) ∧
    ((∀ c, Event.irq c ∉ es) → t.iq = s.iq)

theorem HaltedFrame.event {es : List Event} {e : Event} {s t u : State} (hh : s.halted = true)
    (hreset : ∀ c, Event.reset c ∉ es) (he : e ∈ es) (ht : HaltedFrame es s t)
    (hu : eventWith defaultOpcodes e t = .next u) : HaltedFrame es s u := by
  obtain ⟨hframe, hload, hirq⟩ := ht
  obtain ⟨hframe', hload', hirq'⟩ := eventWith_halted (by rw [hframe]; exact hh) (fun c hc => hreset c (hc ▸ he)) hu
  refine ⟨?_, fun hno => ?_, fun hno => ?_⟩
  · rw [hframe] at hframe'
    exact hframe'
  · obtain ⟨hpc, hm⟩ := hload hno
    obtain ⟨hpc', hm'⟩ := hload' fun bytes base hb => hno bytes base (hb ▸ he)
    exact ⟨hpc'.trans hpc, hm'.trans hm⟩
  · exact (hirq' fun c hc => hno c (hc ▸ he)).trans (hirq hno)

/-- Settles O53: every event of the run keeps `HaltedFrame`. -/
theorem nothingWakesAHaltedCore : Obligations.NothingWakesAHaltedCore := by
  intro es s t hh hreset hrun
  have hstart : HaltedFrame es s s := ⟨rfl, fun _ => ⟨rfl, rfl⟩, fun _ => rfl⟩
  exact runEvents_keeps (P := HaltedFrame es s) (fun _ he _ _ hu hv => hu.event hh hreset he hv) hstart hrun

/-- Settles O54: of what an event leaves, only a RESET, an IRQ and a service can differ in IQ. -/
theorem queueIsFirstInFirstOut : Obligations.QueueIsFirstInFirstOut := by
  intro e s t h
  cases eventLeaves_of_next h with
  | reset c => exact .inr (.inr (.inr ⟨rfl, c, rfl⟩))
  | load | halted | unrecognised => exact .inl rfl
  | irq c =>
    by_cases hc : c ∈ s.iq
    · exact .inl (by rw [irqEvent_of_mem hc])
    · exact .inr (.inl ⟨c, rfl, hc, by rw [irqEvent_of_not_mem hc, setIq_iq]⟩)
  | service c rest hs => exact .inr (.inr (.inl ⟨c, rfl, hs, rfl⟩))
  | instr o v p => exact .inl (effect_iq _ _)

/-- Settles O55: of what an event leaves, only a RESET and a fetch can differ in IR or MAR, and no instruction touches what
its fetch latched. -/
theorem latchesAreWrittenByTheFetchOnly : Obligations.LatchesAreWrittenByTheFetchOnly := by
  intro e s t h
  cases eventLeaves_of_next h with
  | reset c => exact .inr (.inr ⟨rfl, rfl, c, rfl⟩)
  | load | halted | service => exact .inl ⟨rfl, rfl⟩
  | irq c => exact .inl (by rw [irqEvent_eq]; exact ⟨rfl, rfl⟩)
  | unrecognised x p hs hx => exact .inr (.inl ⟨rfl, hs, hx, rfl⟩)
  | instr o v p hs hx => exact .inr (.inl ⟨rfl, hs, by rw [effect_ir]; exact hx, by rw [effect_mar]; rfl⟩)

end Sys2Proof.Machine
end

section
/-! Assembly (spec/30_encoding.md R59): an image is made of one piece per line, each the piece R59 describes for its line
among all the pieces, since it is they that say where a label stands. -/
namespace Sys2Proof.Machine

theorem asmByte_eq_some_iff {n : Nat} {v : Byte} : asmByte n = some v ↔ n < 256 ∧ BitVec.ofNat 8 n = v := by
  simp [asmByte]

theorem asmByte_map_eq_some_iff {α : Type} {n : Nat} {f : Byte → α} {x : α} :
    (asmByte n).map f = some x ↔ n < 256 ∧ x = f (BitVec.ofNat 8 n) := by
  by_cases h : n < 256 <;> simp [asmByte, h, eq_comm]

theorem asmByte_toNat (v : Byte) : asmByte v.toNat = some v := asmByte_eq_some_iff.2 ⟨v.isLt, by simp⟩

/-! ### The lines of instructions -/

theorem lineOf_bytes (t : OpcodeTable) (labels : List (String × Nat)) (i : Instr) :
    (lineOf i).bytes t labels = some (encodeWith t i) := by
  have ho := operand_isSome i
  cases hv : i.operand with
  | none =>
    rw [hv] at ho
    simp [AsmLine.bytes, lineOf, encodeWith, hv, ← ho]
  | some v =>
    rw [hv] at ho
    simp [AsmLine.bytes, lineOf, encodeWith, hv, ← ho, AsmOperand.value, asmByte_toNat]

theorem linesBytes_lineOf (t : OpcodeTable) (labels : List (String × Nat)) (is : List Instr) :
    linesBytes t labels (is.map lineOf) = some (is.flatMap (encodeWith t)) := by
  induction is with
  | nil => rfl
  | cons i is ih => simp [linesBytes, lineOf_bytes, ih]

theorem assemble_lineOf (t : OpcodeTable) (base : Nat) (is : List Instr) :
    assemble t base (is.map lineOf) = some (is.flatMap (encodeWith t)) := by
  have hlabels : (is.map lineOf).filterMap AsmLine.label = [] := by simp [List.filterMap_map, lineOf]
  rw [assemble, labelsFrom_names, hlabels, if_pos List.nodup_nil, linesBytes_lineOf]

/-! ### Lines of any kind -/

/-- R59: the piece of the image line `l` stands for, where `lines` are placed from `base` on as `pieces`. -/
def IsPiece (t : OpcodeTable) (base : Nat) (lines : List AsmLine) (pieces : List (List Byte)) (l : AsmLine)
    (piece : List Byte) : Prop :=
  match l.instr with
  | none => piece = []
  | some (.data n) => n < 256 ∧ piece = [BitVec.ofNat 8 n]
  | some (.op o none) => o.hasOperand = false ∧ piece = [t o]
  | some (.op o (some (.byte n))) => o.hasOperand = true ∧ n < 256 ∧ piece = [t o, BitVec.ofNat 8 n]
  | some (.op o (some (.label name))) => o.hasOperand = true ∧
      ∃ (j : Nat) (d : AsmLine), lines[j]? = some d ∧ d.label = some name ∧
        base + (pieces.take j).flatten.length < 256 ∧
        piece = [t o, BitVec.ofNat 8 (base + (pieces.take j).flatten.length)]

section Pieces

variable {t : OpcodeTable} {base : Nat} {lines : List AsmLine} {pieces : List (List Byte)} {l : AsmLine}
  {piece : List Byte}

theorem IsPiece.length (h : IsPiece t base lines pieces l piece) : piece.length = l.size := by
  obtain ⟨label, _ | ⟨o, _ | _ | _⟩ | n⟩ := l
  · obtain rfl : piece = [] := h
    rfl
  · obtain ⟨ho, rfl⟩ : o.hasOperand = false ∧ _ := h
    simp [AsmLine.size, Op.length, ho]
  · obtain ⟨ho, -, rfl⟩ : o.hasOperand = true ∧ _ := h
    simp [AsmLine.size, Op.length, ho]
  · obtain ⟨ho, _, _, -, -, -, rfl⟩ : o.hasOperand = true ∧ _ := h
    simp [AsmLine.size, Op.length, ho]
  · obtain ⟨-, rfl⟩ : n < 256 ∧ _ := h
    rfl

/-- The byte of a label: with no label defined twice, the address of the byte that follows its one definition. -/
theorem label_value_eq_some_iff (hnodup : (lines.filterMap AsmLine.label).Nodup)
    (hsize : List.Forall₂ (fun l p => p.length = l.size) lines pieces) (name : String) (v : Byte) :
    (AsmOperand.label name).value (labelsFrom base lines) = some v ↔
      ∃ (j : Nat) (d : AsmLine), lines[j]? = some d ∧ d.label = some name ∧
        base + (pieces.take j).flatten.length < 256 ∧ BitVec.ofNat 8 (base + (pieces.take j).flatten.length) = v := by
  have hlookup (a : Nat) := (lookup_eq_some_iff (labelsFrom_names base lines ▸ hnodup) name a).trans
    (mem_labelsFrom_iff lines pieces hsize base name a)
  simp only [AsmOperand.value, Option.bind_eq_some_iff, hlookup, asmByte_eq_some_iff]
  constructor
  · rintro ⟨_, ⟨j, d, hj, hd, rfl⟩, hlt, hv⟩
    exact ⟨j, d, hj, hd, hlt, hv⟩
  · rintro ⟨j, d, hj, hd, hlt, hv⟩
    exact ⟨_, ⟨j, d, hj, hd, rfl⟩, hlt, hv⟩

/-- The bytes the assembler gives a line are the piece R59 describes. -/
theorem bytes_eq_some_iff_isPiece (hnodup : (lines.filterMap AsmLine.label).Nodup)
    (hsize : List.Forall₂ (fun l p => p.length = l.size) lines pieces) :
    l.bytes t (labelsFrom base lines) = some piece ↔ IsPiece t base lines pieces l piece := by
  obtain ⟨label, _ | ⟨o, _ | n | name⟩ | n⟩ := l
  · simp [AsmLine.bytes, IsPiece, eq_comm]
  · cases ho : o.hasOperand <;> simp [AsmLine.bytes, IsPiece, ho, eq_comm]
  · cases ho : o.hasOperand with
    | false => simp [AsmLine.bytes, IsPiece, ho]
    | true =>
      simp only [AsmLine.bytes, IsPiece, ho, if_true, AsmOperand.value, true_and]
      exact asmByte_map_eq_some_iff
  · cases ho : o.hasOperand with
    | false => simp [AsmLine.bytes, IsPiece, ho]
    | true =>
      simp only [AsmLine.bytes, IsPiece, ho, if_true, Option.map_eq_some_iff, label_value_eq_some_iff hnodup hsize]
      constructor
      · rintro ⟨_, ⟨j, d, hj, hd, hlt, rfl⟩, rfl⟩
        exact ⟨trivial, j, d, hj, hd, hlt, rfl⟩
      · rintro ⟨-, j, d, hj, hd, hlt, rfl⟩
        exact ⟨_, ⟨j, d, hj, hd, hlt, rfl⟩, rfl⟩
  · exact asmByte_map_eq_some_iff

end Pieces

theorem forall₂_iff_getElem? {α β : Type} {R : α → β → Prop} {xs : List α} {ys : List β} :
    List.Forall₂ R xs ys ↔ ys.length = xs.length ∧
      ∀ (k : Nat) (x : α) (y : β), xs[k]? = some x → ys[k]? = some y → R x y := by
  rw [List.forall₂_iff_get]
  refine and_congr eq_comm ⟨fun h k x y hx hy => ?_, fun h k hk hk' => ?_⟩
  · obtain ⟨hk, rfl⟩ := List.getElem?_eq_some_iff.1 hx
    obtain ⟨hk', rfl⟩ := List.getElem?_eq_some_iff.1 hy
    exact h k hk hk'
  · exact h k _ _ (List.getElem?_eq_getElem hk) (List.getElem?_eq_getElem hk')

/-- An image is the pieces of the lines in order, and there is one exactly where no label is defined twice and every line
has its piece. -/
theorem assemble_eq_some_iff (t : OpcodeTable) (base : Nat) (lines : List AsmLine) (bytes : List Byte) :
    assemble t base lines = some bytes ↔ (lines.filterMap AsmLine.label).Nodup ∧
      ∃ pieces : List (List Byte), pieces.flatten = bytes ∧
        List.Forall₂ (IsPiece t base lines pieces) lines pieces := by
  rw [assemble, labelsFrom_names]
  by_cases hnodup : (lines.filterMap AsmLine.label).Nodup
  · rw [if_pos hnodup, linesBytes_eq_some_iff, and_iff_right hnodup]
    refine exists_congr fun pieces => and_congr_right fun _ => ⟨fun h => ?_, fun h => ?_⟩
    · have hsize := h.imp fun _ _ => AsmLine.bytes_length
      exact h.imp fun _ _ => (bytes_eq_some_iff_isPiece hnodup hsize).1
    · have hsize := h.imp fun _ _ => IsPiece.length
      exact h.imp fun _ _ => (bytes_eq_some_iff_isPiece hnodup hsize).2
  · rw [if_neg hnodup]
    simp [hnodup]

/-- Settles O7: `assemble_lineOf`, and `assemble_eq_some_iff` with the pieces taken line by line. -/
theorem assemblyIsTheEncoding : Obligations.AssemblyIsTheEncoding := by
  intro t base
  refine ⟨assemble_lineOf t base, fun lines bytes => ?_⟩
  rw [assemble_eq_some_iff]
  refine and_congr_right fun _ => exists_congr fun pieces => ?_
  rw [forall₂_iff_getElem?]
  exact and_left_comm

end Sys2Proof.Machine
end
